-- ==== Sys2Proof/Word.lean ====
section
/-! DEFINITION. The machine's word type and the widths of its instruction fields (spec 00_scope.md R5 to R8). -/

namespace Sys2Proof

/-- R5: an unsigned 16-bit integer; every register and every memory cell is one. -/
abbrev Word := BitVec 16

/-- One byte of a binary program file (R38, R130). No part of the machine is byte-addressed. -/
abbrev Byte := BitVec 8

/-- A 6-bit operand code or operand field (R47, R50). -/
abbrev Code := BitVec 6

end Sys2Proof
end

