-- ==== Sys2Proof/Syntax.lean ====
section
/-! DEFINITION. Instructions and operands as data (spec 30_encoding.md R46 to R53, R56): one constructor of `Instr` per
row of spec/opcode_table.json, one constructor of `Operand` per addressing mode of R50. A next word is no part of an
instruction: it is read by the operand's `process` when the instruction runs (R46, R62). -/

namespace Sys2Proof

/-- R12: the eight general registers, in index order. -/
inductive Reg where
  | a
  | b
  | c
  | x
  | y
  | z
  | i
  | j
deriving DecidableEq, Repr

/-- R50: the addressing modes. `[next word + register]` is `indNext`, `[next word]` is `nextInd`, the long immediate
is `next`, the short literal 0 to 31 is `lit`. R6 and R50 count 13 modes while R50's table and the mode rules R66 to R77
have 12 for all 64 codes: that the modes are those twelve is the model's choice (DESIGN CHOICE, log entry 22). -/
inductive Operand where
  | reg (r : Reg)
  | ind (r : Reg)
  | indNext (r : Reg)
  | pop
  | peek
  | push
  | sp
  | pc
  | o
  | nextInd
  | next
  | lit (v : BitVec 5)
deriving DecidableEq, Repr

/-- R51, R52: the fifteen basic instructions with operands A and B, JSR with its one operand, and the halt sentinel
("no instruction") with the two ignored fields of its word, kept so that no bit of the word is lost. -/
inductive Instr where
  | set (a b : Operand)
  | add (a b : Operand)
  | sub (a b : Operand)
  | mul (a b : Operand)
  | div (a b : Operand)
  | mod (a b : Operand)
  | shl (a b : Operand)
  | shr (a b : Operand)
  | and (a b : Operand)
  | bor (a b : Operand)
  | xor (a b : Operand)
  | ife (a b : Operand)
  | ifn (a b : Operand)
  | ifg (a b : Operand)
  | ifb (a b : Operand)
  | jsr (a : Operand)
  | halt (fa fb : Code)
deriving DecidableEq, Repr

end Sys2Proof
end

