-- ==== Sys2Proof/WellFormed.lean ====
section
/-! DEFINITION. Which terms of `Instr` are instructions of the machine. Every combination of operand codes is one
(30_encoding.md R56); the only check is that a halt word's field A is not the JSR marker (R52, R107). -/

namespace Sys2Proof

/-- R52: field A of an opcode-0 word that selects JSR. -/
abbrev jsrMarker : Code := 0x01

/-- R56, R107: every basic instruction and every JSR is legal; a halt word has a field A other than the JSR marker. -/
def Instr.wf : Instr → Bool
  | .set _ _ | .add _ _ | .sub _ _ | .mul _ _ | .div _ _ | .mod _ _ | .shl _ _ | .shr _ _ => true
  | .and _ _ | .bor _ _ | .xor _ _ | .ife _ _ | .ifn _ _ | .ifg _ _ | .ifb _ _ | .jsr _ => true
  | .halt fa _ => fa != jsrMarker

end Sys2Proof
end

