-- ==== Sys2Proof/Decode.lean ====
section
/-! DEFINITION. Decoding and encoding (spec 30_encoding.md R46 to R57). `decodeWord` is total on Words and reads nothing
but the Word (R53, R57); `decode` and `decodeBytes` read an instruction with its next words from a list of Words or
of bytes and reject by name what is too short. `encode` is written from the same tables. -/

namespace Sys2Proof

/-! ### Fields of the instruction word (R47, R48) -/

/-- `w[3:0]`, the opcode. -/
def fieldOp (w : Word) : BitVec 4 := w.extractLsb' 0 4

/-- `w[9:4]`, operand A's code, or the extended opcode. -/
def fieldA (w : Word) : Code := w.extractLsb' 4 6

/-- `w[15:10]`, operand B's code, or JSR's operand. -/
def fieldB (w : Word) : Code := w.extractLsb' 10 6

/-- R47: `w = (fb << 10) | (fa << 4) | op`. -/
def packWord (fb fa : Code) (op : BitVec 4) : Word :=
  (fb.setWidth 16 <<< 10) ||| (fa.setWidth 16 <<< 4) ||| op.setWidth 16

/-! ### Operand codes (R12, R50) -/

/-- R12: a register's index. -/
def Reg.index : Reg → Nat
  | .a => 0
  | .b => 1
  | .c => 2
  | .x => 3
  | .y => 4
  | .z => 5
  | .i => 6
  | .j => 7

/-- R12: the register of an index 0 to 7. -/
def Reg.ofIndex : Nat → Reg
  | 0 => .a
  | 1 => .b
  | 2 => .c
  | 3 => .x
  | 4 => .y
  | 5 => .z
  | 6 => .i
  | _ => .j

/-- R50: the mode each of the 64 codes selects. -/
def decodeOperand (c : Code) : Operand :=
  if c.toNat < 0x08 then .reg (Reg.ofIndex c.toNat)
  else if c.toNat < 0x10 then .ind (Reg.ofIndex (c.toNat - 0x08))
  else if c.toNat < 0x18 then .indNext (Reg.ofIndex (c.toNat - 0x10))
  else if c.toNat = 0x18 then .pop
  else if c.toNat = 0x19 then .peek
  else if c.toNat = 0x1A then .push
  else if c.toNat = 0x1B then .sp
  else if c.toNat = 0x1C then .pc
  else if c.toNat = 0x1D then .o
  else if c.toNat = 0x1E then .nextInd
  else if c.toNat = 0x1F then .next
  else .lit (BitVec.ofNat 5 (c.toNat - 0x20))

/-- R50: the code of each mode. -/
def encodeOperand : Operand → Code
  | .reg r => BitVec.ofNat 6 r.index
  | .ind r => BitVec.ofNat 6 (0x08 + r.index)
  | .indNext r => BitVec.ofNat 6 (0x10 + r.index)
  | .pop => 0x18
  | .peek => 0x19
  | .push => 0x1A
  | .sp => 0x1B
  | .pc => 0x1C
  | .o => 0x1D
  | .nextInd => 0x1E
  | .next => 0x1F
  | .lit v => BitVec.ofNat 6 (0x20 + v.toNat)

/-! ### Instruction words (R51 to R53) -/

/-- R53: the instruction of a Word, for every Word. -/
def decodeWord (w : Word) : Instr :=
  let a := decodeOperand (fieldA w)
  let b := decodeOperand (fieldB w)
  match (fieldOp w).toNat with
  | 0x1 => .set a b
  | 0x2 => .add a b
  | 0x3 => .sub a b
  | 0x4 => .mul a b
  | 0x5 => .div a b
  | 0x6 => .mod a b
  | 0x7 => .shl a b
  | 0x8 => .shr a b
  | 0x9 => .and a b
  | 0xA => .bor a b
  | 0xB => .xor a b
  | 0xC => .ife a b
  | 0xD => .ifn a b
  | 0xE => .ifg a b
  | 0xF => .ifb a b
  | _ => if fieldA w = jsrMarker then .jsr b else .halt (fieldA w) (fieldB w)

/-- R47, R48, R51, R52: the instruction word of an instruction. -/
def encode : Instr → Word
  | .set a b => packWord (encodeOperand b) (encodeOperand a) 0x1
  | .add a b => packWord (encodeOperand b) (encodeOperand a) 0x2
  | .sub a b => packWord (encodeOperand b) (encodeOperand a) 0x3
  | .mul a b => packWord (encodeOperand b) (encodeOperand a) 0x4
  | .div a b => packWord (encodeOperand b) (encodeOperand a) 0x5
  | .mod a b => packWord (encodeOperand b) (encodeOperand a) 0x6
  | .shl a b => packWord (encodeOperand b) (encodeOperand a) 0x7
  | .shr a b => packWord (encodeOperand b) (encodeOperand a) 0x8
  | .and a b => packWord (encodeOperand b) (encodeOperand a) 0x9
  | .bor a b => packWord (encodeOperand b) (encodeOperand a) 0xA
  | .xor a b => packWord (encodeOperand b) (encodeOperand a) 0xB
  | .ife a b => packWord (encodeOperand b) (encodeOperand a) 0xC
  | .ifn a b => packWord (encodeOperand b) (encodeOperand a) 0xD
  | .ifg a b => packWord (encodeOperand b) (encodeOperand a) 0xE
  | .ifb a b => packWord (encodeOperand b) (encodeOperand a) 0xF
  | .jsr a => packWord (encodeOperand a) jsrMarker 0x0
  | .halt fa fb => packWord fb fa 0x0

/-! ### Length (R49) -/

/-- R49: `nw(c)`, how many next words an operand code consumes. -/
def codeNextWords (c : Code) : Nat :=
  if 0x10 ≤ c.toNat ∧ c.toNat ≤ 0x17 ∨ c.toNat = 0x1E ∨ c.toNat = 0x1F then 1 else 0

/-- R49: the length in Words, told from the instruction word alone. -/
def lengthOfWord (w : Word) : Nat :=
  if fieldOp w ≠ 0 then 1 + codeNextWords (fieldA w) + codeNextWords (fieldB w)
  else if fieldA w = jsrMarker then 1 + codeNextWords (fieldB w)
  else 1

/-- R50, column "Next word". -/
def Operand.nextWords : Operand → Nat
  | .reg _ | .ind _ | .pop | .peek | .push | .sp | .pc | .o | .lit _ => 0
  | .indNext _ | .nextInd | .next => 1

/-- R80: the operands of an instruction, A first; the halt sentinel has none. -/
def Instr.operands : Instr → List Operand
  | .set a b | .add a b | .sub a b | .mul a b | .div a b | .mod a b | .shl a b | .shr a b => [a, b]
  | .and a b | .bor a b | .xor a b | .ife a b | .ifn a b | .ifg a b | .ifb a b => [a, b]
  | .jsr a => [a]
  | .halt _ _ => []

/-- R49: the length in Words of an instruction. -/
def Instr.length (i : Instr) : Nat := 1 + (i.operands.map Operand.nextWords).sum

/-- R107: the halt sentinel, "no instruction". -/
def Instr.isHalt : Instr → Bool
  | .halt _ _ => true
  | .set _ _ | .add _ _ | .sub _ _ | .mul _ _ | .div _ _ | .mod _ _ | .shl _ _ | .shr _ _ => false
  | .and _ _ | .bor _ _ | .xor _ _ | .ife _ _ | .ifn _ _ | .ifg _ _ | .ifb _ _ | .jsr _ => false

/-! ### Lists of Words and of bytes -/

/-- Why a list of Words or bytes holds no whole instruction. No Word is rejected: every one decodes (R56). -/
inductive DecodeError where
  /-- the list is empty -/
  | noWord
  /-- the list ends before the next words that the instruction word calls for (R49) -/
  | missingNextWords
  /-- an odd number of bytes makes no Words (R130) -/
  | oddByteCount
deriving DecidableEq, Repr

/-- An instruction, its next words in memory order (A's before B's, R79), and the Words after it. -/
structure Decoded where
  instr : Instr
  next : List Word
  rest : List Word
deriving DecidableEq, Repr

/-- R46: the first instruction of a list of Words. -/
def decode : List Word → Except DecodeError Decoded
  | [] => .error .noWord
  | w :: ws =>
    if ws.length + 1 < lengthOfWord w then .error .missingNextWords
    else .ok { instr := decodeWord w, next := ws.take (lengthOfWord w - 1), rest := ws.drop (lengthOfWord w - 1) }

/-- The Words of an instruction with the next words it is given. -/
def encodeWords (i : Instr) (next : List Word) : List Word := encode i :: next

/-- R38, R130: "big-endian byte pairs per word (high byte first)"; none for an odd number of bytes. -/
def wordsOfBytes : List Byte → Option (List Word)
  | [] => some []
  | [_] => none
  | h :: l :: bs => (wordsOfBytes bs).map ((h ++ l : Word) :: ·)

/-- The first instruction of a binary program. -/
def decodeBytes (bs : List Byte) : Except DecodeError Decoded :=
  match wordsOfBytes bs with
  | none => .error .oddByteCount
  | some ws => decode ws

/-! ### The opcode table's numbering -/

/-- The three Words (the longest instruction) whose bits are `w`'s first `nbits`, bit 0 the least significant bit of
the first Word, every bit above `nbits` zero. -/
def tableWords (nbits w : Nat) : List Word :=
  let v := w % 2 ^ nbits
  [BitVec.ofNat 16 v, BitVec.ofNat 16 (v >>> 16), BitVec.ofNat 16 (v >>> 32)]

/-- The instruction that `decode` reads from an instruction whose bits are `w`, numbered as spec/opcode_table.json
numbers them. -/
def decodeTableWord (nbits w : Nat) : Option Instr :=
  match decode (tableWords nbits w) with
  | .ok d => some d.instr
  | .error _ => none

end Sys2Proof
end

