-- ==== Sys2Proof/Config.lean ====
section
/-! DEFINITION. The four named parameters of the spec (00_scope.md R6, decisions D3, D5, D6, D7) as plain data, and the one
free value: an implementation's own arithmetic. The parameters stand in `State.params`, so every claim about every
state is a claim about every choice of them; `State.reset` holds the spec's defaults. -/

namespace Sys2Proof

/-- D5, R78: what the second access to one POP operand of one instruction does. -/
inductive StackRmwMode where
  | perAccess
  | resolveOnce
deriving DecidableEq, Repr

/-- D3, R87: which of the result and the overflow value is written first. -/
inductive OverflowWriteOrder where
  | resultThenOverflow
  | overflowThenResult
deriving DecidableEq, Repr

/-- D6, U3: the integers the arithmetic formulas are evaluated on. `own` is "an implementation's own": where the
integer width can matter its results are the free value `Config.ownArith`. -/
inductive ArithSemantics where
  | mathematical
  | own
deriving DecidableEq, Repr

/-- The instructions whose formulas are arithmetic (42_arithmetic.md). -/
inductive ArithOp where
  | add
  | sub
  | mul
  | div
  | mod
  | shl
  | shr
deriving DecidableEq, Repr

/-- The parameters of R6, fixed for one machine: no step and no host call changes them. -/
structure Params where
  stackRmwMode : StackRmwMode
  overflowWriteOrder : OverflowWriteOrder
  arithSemantics : ArithSemantics
  fetchClearsKeyboard : Bool
deriving DecidableEq, Repr

/-- The defaults of R6's second table. -/
def Params.default : Params where
  stackRmwMode := .perAccess
  overflowWriteOrder := .resultThenOverflow
  arithSemantics := .mathematical
  fetchClearsKeyboard := true

/-- FREE VALUE (log entry 4): the result and the overflow value that an implementation's own integers give where they
may differ from mathematical integers. It has no body: nothing can be proved of its values. -/
opaque Config.ownArith : ArithOp → Word → Word → Word × Word

end Sys2Proof
end

