-- ==== Sys2Proof/Machine/State.lean ====
section
/-! DEFINITION. The state of the machine (spec 10_state.md R11 to R27, 60_exceptions.md R112, R121), the reasons a step
stops, and the state after reset. -/

namespace Sys2Proof.Machine

/-- R12: the eight general registers, one Word each. -/
structure Regs where
  a : Word
  b : Word
  c : Word
  x : Word
  y : Word
  z : Word
  i : Word
  j : Word
deriving DecidableEq, Repr

/-- R28: the one memory of 65536 Words, as the cells that do not hold 0 (what reset leaves, R27), in rising order of
address. The machine has no byte addresses (R28, R38), so a cell is a Word (log entry 1). The canonical form is
`Mem.wf` (Machine/Ops.lean). -/
abbrev Mem := List (Nat × Word)

/-- R121: the registers a notification can be tagged with. -/
inductive RegName where
  | gp (r : Reg)
  | pc
  | sp
  | o
deriving DecidableEq, Repr

/-- R33, R121: the notifications of memory and register writes, each with its payload. -/
inductive Event where
  | memWillChange (addr v : Word)
  | videoChanged (addr v : Word)
  | keyboardChanged (addr v : Word)
  | memDidChange (addr v : Word)
  | valueLoaded (addr v : Word)
  | regWillChange (r : RegName) (v : Word)
  | regDidChange (r : RegName) (v : Word)
deriving DecidableEq, Repr

/-- R109: the two kinds of the one fault. -/
inductive FaultKind where
  /-- a `rd` of PUSH (R64) -/
  | readOfWriteOnly
  /-- a `wr` of code 0x1F or 0x20-0x3F (R65) -/
  | writeOfReadOnly
deriving DecidableEq, Repr

/-- R112: the information of a fault: its kind, the operand code, the instruction word and the address it was fetched
from. -/
structure FaultInfo where
  kind : FaultKind
  code : Code
  word : Word
  addr : Word
deriving DecidableEq, Repr

/-- R10: what a call of `execute_next` that is neither a fault nor refused returns. -/
inductive StepResult where
  /-- the source's `true` -/
  | executed
  /-- the source's `false`: "halt, no instruction executed" -/
  | halted
deriving DecidableEq, Repr

/-- Everything the machine holds. `regs` to `mem` are the architectural state of R11; `faulted` is the mark of R26;
`loaded` is R80's; `params` are the parameters of R6; `result` and `events` are the output of the call in progress or
last made: what `execute_next` returned (R10) and the notifications fired, oldest first (R121). -/
structure State where
  regs : Regs
  pc : Word
  sp : Word
  o : Word
  skip : Bool
  mem : Mem
  loaded : Bool
  faulted : Option FaultInfo
  params : Params
  result : Option StepResult
  events : List Event
deriving DecidableEq, Repr

/-- Why a step ends in a fault. -/
inductive Fault where
  /-- R88, R109: raised by a `rd` of PUSH or a `wr` of a read-only mode while an instruction is applied. `left` is the
  state the faulting call leaves, with everything already done and the fault mark set (R26, R114). Safe: the
  hardware's call ends with this fault too. -/
  | invalidOperation (info : FaultInfo) (left : State)
deriving DecidableEq, Repr

/-- Why a call is given no meaning. -/
inductive Refusal where
  /-- an instruction of the opcode table whose meaning is not written yet; raised by `exec` only. Safe. -/
  | notModelled (mnemonic : String)
  /-- R80, R126, D11: `execute_next` before the first `load_program`. Safe. -/
  | notLoaded
  /-- R26, R115, D12: `execute_next` while the fault mark is set. Safe. -/
  | faultMarkSet
  /-- R124, D14: a host register index outside 0 to 7. Safe. -/
  | registerIndexOutOfRange
  /-- R129, D15: `load_program` of more than 65536 Words. Safe. -/
  | programTooLong
deriving DecidableEq, Repr

/-- R27, R128: the machine right after reset, as `load_program` of the empty program leaves it: every register and
every cell 0, skip Normal, no fault mark. `loaded` is true because reset runs only inside a load (log entry 7);
`params` are the defaults of R6 (log entries 2 to 5); no call has returned or notified yet (log entry 9). -/
def State.reset : State where
  regs := { a := 0, b := 0, c := 0, x := 0, y := 0, z := 0, i := 0, j := 0 }
  pc := 0
  sp := 0
  o := 0
  skip := false
  mem := []
  loaded := true
  faulted := none
  params := Params.default
  result := none
  events := []

end Sys2Proof.Machine
end

