-- ==== Sys2Proof/Machine/Ops.lean ====
section
/-! DEFINITION. The named operations over registers and memory (spec 10_state.md, 20_memory.md), the fetch of an
instruction word (41_cycle.md R81), and the one fault (60_exceptions.md R109 to R114). -/

namespace Sys2Proof.Machine

/-! ### Memory cells (R28, R30) -/

/-- The Word of a cell; a cell that is not listed holds 0. -/
def Mem.read : Mem → Nat → Word
  | [], _ => 0
  | (k, w) :: m, a => if k = a then w else Mem.read m a

/-- Every cell but the one at `a`. -/
def Mem.erase : Mem → Nat → Mem
  | [], _ => []
  | (k, w) :: m, a => if k = a then Mem.erase m a else (k, w) :: Mem.erase m a

/-- Put a cell where the rising order of addresses wants it. -/
def Mem.insert : Mem → Nat → Word → Mem
  | [], a, v => [(a, v)]
  | (k, w) :: m, a, v => if a < k then (a, v) :: (k, w) :: m else (k, w) :: Mem.insert m a v

/-- Store `v` at `a`; storing 0 unlists the cell. -/
def Mem.write (m : Mem) (a : Nat) (v : Word) : Mem :=
  if v = 0 then m.erase a else (m.erase a).insert a v

/-- The canonical form from address `lo` upward: addresses strictly rising and below 65536, no cell listed with 0. -/
def Mem.wfFrom : Nat → Mem → Bool
  | _, [] => true
  | lo, (k, w) :: m => decide (lo ≤ k) && decide (k < 0x10000) && w != 0 && Mem.wfFrom (k + 1) m

/-- The canonical form: equal memories are equal lists. -/
def Mem.wf (m : Mem) : Bool := Mem.wfFrom 0 m

/-! ### Windows (R29, R33 to R36) -/

/-- R29: what sets an address apart. The character-set and misc windows behave as RAM (R36), so they are `plain`. -/
inductive Region where
  | plain
  | video
  | keyboard
deriving DecidableEq, Repr

/-- R29: the video window 0x8000-0x817F and the keyboard window 0x9000-0x900F. -/
def regionOf (a : Word) : Region :=
  if 0x8000 ≤ a.toNat ∧ a.toNat ≤ 0x817F then .video
  else if 0x9000 ≤ a.toNat ∧ a.toNat ≤ 0x900F then .keyboard
  else .plain

/-- R33: the window notification of a write, if its address has one. -/
def windowEvents (a v : Word) : List Event :=
  match regionOf a with
  | .video => [.videoChanged a v]
  | .keyboard => [.keyboardChanged a v]
  | .plain => []

/-- R33: the notifications of one memory write, in their fixed order. -/
def writeEvents (a v : Word) : List Event :=
  .memWillChange a v :: (windowEvents a v ++ [.memDidChange a v])

/-! ### Memory accesses of the machine (R31, R32) -/

/-- `M[a]`, with no side effect. -/
def State.cell (s : State) (a : Word) : Word := s.mem.read a.toNat

/-- R32, R33: `MemWrite(a, 1, v)`. -/
def State.memWrite (s : State) (a v : Word) : State :=
  { s with mem := s.mem.write a.toNat v, events := s.events ++ writeEvents a v }

/-- R31: what a read leaves: a keyboard cell is cleared, by a write with its notifications. -/
def State.afterRead (s : State) (a : Word) : State :=
  match regionOf a with
  | .keyboard => s.memWrite a 0
  | .plain | .video => s

/-- R31: `MemRead(a, 1)`: the Word and the state after the read. -/
def State.memRead (s : State) (a : Word) : Word × State := (s.cell a, s.afterRead a)

/-! ### Registers (R13, R15, R18, R20, R121) -/

/-- `x[i]`. -/
def Regs.get (g : Regs) : Reg → Word
  | .a => g.a
  | .b => g.b
  | .c => g.c
  | .x => g.x
  | .y => g.y
  | .z => g.z
  | .i => g.i
  | .j => g.j

/-- The register file with one register replaced. -/
def Regs.set (g : Regs) : Reg → Word → Regs
  | .a, v => { g with a := v }
  | .b, v => { g with b := v }
  | .c, v => { g with c := v }
  | .x, v => { g with x := v }
  | .y, v => { g with y := v }
  | .z, v => { g with z := v }
  | .i, v => { g with i := v }
  | .j, v => { g with j := v }

/-- R121: the index a register notification carries: that of A..J, or 0. -/
def RegName.index : RegName → Nat
  | .gp r => r.index
  | .pc | .sp | .o => 0

/-- R121: the payload of a notification, (address or index, new value). -/
def Event.payload : Event → Nat × Word
  | .memWillChange a v | .videoChanged a v | .keyboardChanged a v | .memDidChange a v | .valueLoaded a v => (a.toNat, v)
  | .regWillChange r v | .regDidChange r v => (r.index, v)

/-- R121: the notifications of one register write. -/
def regEvents (r : RegName) (v : Word) : List Event := [.regWillChange r v, .regDidChange r v]

/-- R13: `x[r] <- v`. -/
def State.setReg (s : State) (r : Reg) (v : Word) : State :=
  { s with regs := s.regs.set r v, events := s.events ++ regEvents (.gp r) v }

/-- R15: `PC <- v`. -/
def State.setPc (s : State) (v : Word) : State :=
  { s with pc := v, events := s.events ++ regEvents .pc v }

/-- R18: `SP <- v`. -/
def State.setSp (s : State) (v : Word) : State :=
  { s with sp := v, events := s.events ++ regEvents .sp v }

/-- R20: `O <- v`. -/
def State.setO (s : State) (v : Word) : State :=
  { s with o := v, events := s.events ++ regEvents .o v }

/-- R17: an increment of PC, modulo 2^16. -/
def State.incPc (s : State) : State := s.setPc (s.pc + 1)

/-- R22: `skip <- v`. The skip state fires no notification. -/
def State.setSkip (s : State) (v : Bool) : State := { s with skip := v }

/-! ### The call of `execute_next` (R10, R80, R81) -/

/-- The start of a call: its output is empty. -/
def State.beginCall (s : State) : State := { s with result := none, events := [] }

/-- What the call returns (R10). -/
def State.returning (s : State) (r : StepResult) : State := { s with result := some r }

/-- R80's first line: why `execute_next` is refused (R126, R26). -/
def stepRefusal (s : State) : Option Refusal :=
  if s.loaded = false then some .notLoaded
  else if s.faulted.isSome then some .faultMarkSet
  else none

/-- R81: the fetched word and the state after the fetch, which clears a keyboard cell when `FetchClearsKeyboard`. -/
def fetch (s : State) : Word × State :=
  if s.params.fetchClearsKeyboard then s.memRead s.pc else (s.cell s.pc, s)

/-! ### Accesses that can fault, and the fault -/

/-- The outcome of a part of `apply`: it goes on with a value and a state, or raises `InvalidOperation`, and `s` is
the state at the raise (R88: nothing done is undone). -/
inductive Access (α : Type) where
  | ok (v : α) (s : State)
  | raise (k : FaultKind) (c : Code) (s : State)
deriving DecidableEq, Repr

/-- Sequencing: a raise ends the whole (R88). -/
def Access.bind {α β : Type} (m : Access α) (f : α → State → Access β) : Access β :=
  match m with
  | .ok v s => f v s
  | .raise k c s => .raise k c s

/-- R88, R109, R112 to R114: taking the fault, for the instruction `i` fetched from `p`. The call ends; no register
saves anything, no mode changes, control goes nowhere; the fault mark keeps the information. There is no return from
it (R115): only a load clears the mark. -/
def raiseInvalidOperation (i : Instr) (p : Word) (k : FaultKind) (c : Code) (s : State) :
    Host.Outcome State Fault Refusal :=
  let info : FaultInfo := { kind := k, code := c, word := encode i, addr := p }
  .fault (.invalidOperation info { s with faulted := some info })

/-- Place Words at consecutive addresses (wrapping, R39), with no notifications: the program as already loaded. -/
def Mem.place (m : Mem) (a : Word) : List Word → Mem
  | [] => m
  | w :: ws => Mem.place (m.write a.toNat w) (a + 1) ws

end Sys2Proof.Machine
end

