-- ==== Sys2Proof/Machine/Operands.lean ====
section
/-! DEFINITION. The four operations of every addressing mode (spec 40_operands.md R61 to R79). -/

namespace Sys2Proof.Machine

/-- R61: an operand after `process`: its mode with what the mode captured, the next word `nw`, the register value `cr`,
and `sa`, the stack address that an access of a POP operand resolved. Freshly made in every step (R23). -/
inductive Resolved where
  | reg (r : Reg)
  | ind (r : Reg)
  | indNext (r : Reg) (nw cr : Word)
  | pop (sa : Option Word)
  | peek
  | push
  | sp
  | pc
  | o
  | nextInd (nw : Word)
  | next (nw : Word)
  | lit (v : BitVec 5)
deriving DecidableEq, Repr

/-- The operand that was processed. -/
def Resolved.operand : Resolved → Operand
  | .reg r => .reg r
  | .ind r => .ind r
  | .indNext r _ _ => .indNext r
  | .pop _ => .pop
  | .peek => .peek
  | .push => .push
  | .sp => .sp
  | .pc => .pc
  | .o => .o
  | .nextInd _ => .nextInd
  | .next _ => .next
  | .lit v => .lit v

/-- R62: PC moves to the next word, which is read there. -/
def consumeNext (s : State) : Word × State := s.incPc.memRead s.incPc.pc

/-- R62: `process(op)`. -/
def process (op : Operand) (s : State) : Resolved × State :=
  match op with
  | .reg r => (.reg r, s)
  | .ind r => (.ind r, s)
  | .indNext r => (.indNext r (consumeNext s).1 ((consumeNext s).2.regs.get r), (consumeNext s).2)
  | .pop => (.pop none, s)
  | .peek => (.peek, s)
  | .push => (.push, s)
  | .sp => (.sp, s)
  | .pc => (.pc, s)
  | .o => (.o, s)
  | .nextInd => (.nextInd (consumeNext s).1, (consumeNext s).2)
  | .next => (.next (consumeNext s).1, (consumeNext s).2)
  | .lit v => (.lit v, s)

/-- R63: `no_op(op)`: PC passes the next word, which is not read. -/
def noOp (op : Operand) (s : State) : State :=
  match op with
  | .reg _ | .ind _ | .pop | .peek | .push | .sp | .pc | .o | .lit _ => s
  | .indNext _ | .nextInd | .next => s.incPc

/-- R69, R78: the cell an access of a POP operand goes to. -/
def popAddr (sa : Option Word) (s : State) : Word :=
  match s.params.stackRmwMode with
  | .perAccess => s.sp
  | .resolveOnce => sa.getD s.sp

/-- R69, R78: the move of SP that follows the access, unless the operand was resolved before. -/
def popMove (sa : Option Word) (s : State) : State :=
  match s.params.stackRmwMode with
  | .perAccess => s.setSp (s.sp + 1)
  | .resolveOnce =>
    match sa with
    | none => s.setSp (s.sp + 1)
    | some _ => s

/-- The memory cell that a `wr` of the operand stores to, in the state it is applied to; none for the modes that
store to no memory (R65). -/
def Resolved.writeAddr (r : Resolved) (s : State) : Option Word :=
  match r with
  | .reg _ | .sp | .pc | .o | .next _ | .lit _ => none
  | .ind g => some (s.regs.get g)
  | .indNext _ nw cr => some (nw + cr)
  | .pop sa => some (popAddr sa s)
  | .peek => some s.sp
  | .push => some (s.sp - 1)
  | .nextInd nw => some nw

/-- The memory cell that a `rd` of the operand reads (R64). -/
def Resolved.readAddr (r : Resolved) (s : State) : Option Word :=
  match r with
  | .reg _ | .sp | .pc | .o | .next _ | .lit _ | .push => none
  | .ind g => some (s.regs.get g)
  | .indNext _ nw cr => some (nw + cr)
  | .pop sa => some (popAddr sa s)
  | .peek => some s.sp
  | .nextInd nw => some nw

/-- A `rd` that reads one memory cell and moves nothing. -/
def readCell (r : Resolved) (a : Word) (s : State) : Access (Word × Resolved) :=
  .ok ((s.memRead a).1, r) (s.memRead a).2

/-- R69: `popRead`. -/
def popRead (sa : Option Word) (s : State) : Access (Word × Resolved) :=
  let a := popAddr sa s
  .ok ((s.memRead a).1, .pop (some a)) (popMove sa (s.memRead a).2)

/-- R69: `popWrite`. -/
def popWrite (sa : Option Word) (v : Word) (s : State) : State :=
  popMove sa (s.memWrite (popAddr sa s) v)

/-- R64: `rd(op)`: the value, with the operand as the access leaves it, or the fault of PUSH. -/
def rd (r : Resolved) (s : State) : Access (Word × Resolved) :=
  match r with
  | .reg g => .ok (s.regs.get g, r) s
  | .ind g => readCell r (s.regs.get g) s
  | .indNext _ nw cr => readCell r (nw + cr) s
  | .pop sa => popRead sa s
  | .peek => readCell r s.sp s
  | .push => .raise .readOfWriteOnly (encodeOperand .push) s
  | .sp => .ok (s.sp, r) s
  | .pc => .ok (s.pc, r) s
  | .o => .ok (s.o, r) s
  | .nextInd nw => readCell r nw s
  | .next nw => .ok (nw, r) s
  | .lit v => .ok (v.setWidth 16, r) s

/-- R65: `wr(op, v)`: whether PC was written by a jump (`pcWritten`, R85), or the fault of a read-only mode, which
stores nothing. -/
def wr (r : Resolved) (v : Word) (s : State) : Access Bool :=
  match r with
  | .reg g => .ok false (s.setReg g v)
  | .ind g => .ok false (s.memWrite (s.regs.get g) v)
  | .indNext _ nw cr => .ok false (s.memWrite (nw + cr) v)
  | .pop sa => .ok false (popWrite sa v s)
  | .peek => .ok false (s.memWrite s.sp v)
  | .push => .ok false ((s.setSp (s.sp - 1)).memWrite (s.sp - 1) v)
  | .sp => .ok false (s.setSp v)
  | .pc => .ok true (s.setPc v)
  | .o => .ok false (s.setO v)
  | .nextInd nw => .ok false (s.memWrite nw v)
  | .next _ => .raise .writeOfReadOnly (encodeOperand .next) s
  | .lit c => .raise .writeOfReadOnly (encodeOperand (.lit c)) s

/-- R64, R110: every mode but PUSH can be read. -/
def readable : Operand → Bool
  | .push => false
  | .reg _ | .ind _ | .indNext _ | .pop | .peek | .sp | .pc | .o | .nextInd | .next | .lit _ => true

/-- R65, R110: every mode but the long immediate and the literals can be written. -/
def writable : Operand → Bool
  | .next | .lit _ => false
  | .reg _ | .ind _ | .indNext _ | .pop | .peek | .push | .sp | .pc | .o | .nextInd => true

end Sys2Proof.Machine
end

