-- ==== Sys2Proof/Machine/Apply.lean ====
section
/-! DEFINITION. The shape of executing an instruction (spec 41_cycle.md R84 to R88): process the operands, read them A
first, compute, write last, then advance PC unless it was written; and the skipped step (R83). -/

namespace Sys2Proof.Machine

/-- What the reads of a two-operand instruction give: the values `a` and `b`, and operand A as its read leaves it. -/
structure Reads where
  a : Word
  b : Word
  dst : Resolved
deriving DecidableEq, Repr

/-- R84, R86, R79: process A, process B, read A, read B. -/
def readBoth (a b : Operand) (s : State) : Access Reads :=
  let pa := process a s
  let pb := process b pa.2
  (rd pa.1 pb.2).bind fun va s1 =>
    (rd pb.1 s1).bind fun vb s2 =>
      .ok { a := va.1, b := vb.1, dst := va.2 } s2

/-- R86, R91: process A, process B, read B: operand A is not read. -/
def readSource (a b : Operand) (s : State) : Access (Word × Resolved) :=
  let pa := process a s
  let pb := process b pa.2
  (rd pb.1 pb.2).bind fun vb s1 => .ok (vb.1, pa.1) s1

/-- R87: `write_result_and_overflow`. -/
def writeResultAndOverflow (dst : Resolved) (pair : Word × Word) (s : State) : Access Bool :=
  match s.params.overflowWriteOrder with
  | .resultThenOverflow => (wr dst pair.1 s).bind fun pw s1 => .ok pw (s1.setO pair.2)
  | .overflowThenResult => wr dst pair.1 (s.setO pair.2)

/-- R85, R88: the end of an executed step: PC is incremented unless the instruction wrote it, or the fault is taken. `p`
is the address the instruction was fetched from. -/
def finish (i : Instr) (p : Word) (m : Access Bool) : Host.Outcome State Fault Refusal :=
  match m with
  | .ok pcWritten s => .next ((if pcWritten then s else s.incPc).returning .executed)
  | .raise k c s => raiseInvalidOperation i p k c s

/-- R86, `apply_binary` of an instruction that writes O. -/
def applyWithOverflow (f : ArithSemantics → Word → Word → Word × Word) (a b : Operand) (s : State) : Access Bool :=
  (readBoth a b s).bind fun v s1 => writeResultAndOverflow v.dst (f s1.params.arithSemantics v.a v.b) s1

/-- R86, `apply_binary` of an instruction that leaves O alone. -/
def applyPlain (f : Word → Word → Word) (a b : Operand) (s : State) : Access Bool :=
  (readBoth a b s).bind fun v s1 => wr v.dst (f v.a v.b) s1

/-- R86, `apply_set`. -/
def applySet (a b : Operand) (s : State) : Access Bool :=
  (readSource a b s).bind fun v s1 => wr v.2 v.1 s1

/-- R86, `apply_if`: a false condition sets `skip`, a true one leaves it as it was. -/
def applyIf (cond : Word → Word → Bool) (a b : Operand) (s : State) : Access Bool :=
  (readBoth a b s).bind fun v s1 => .ok false (if cond v.a v.b then s1 else s1.setSkip true)

/-- R106, `apply_jsr`: the target is read before SP moves; the Word pushed is PC as it stands during apply. -/
def applyJsr (a : Operand) (s : State) : Access Bool :=
  let pa := process a s
  (rd pa.1 pa.2).bind fun t s1 =>
    .ok true (((s1.setSp (s1.sp - 1)).memWrite (s1.sp - 1) s1.pc).setPc t.1)

/-- R80, R82: whether a step that decoded `i` skips it: the halt test comes before the skip test. -/
def skips (i : Instr) (s : State) : Bool := s.skip && !i.isHalt

/-- R83: the skipped step: `no_op` on the operands, A first, then `skip` is cleared and PC moves past the last word. -/
def skipStep (i : Instr) (s : State) : State :=
  (((i.operands.foldl (fun t op => noOp op t) s).setSkip false).incPc).returning .executed

end Sys2Proof.Machine
end

