-- ==== Sys2Proof/Machine/Flags.lean ====
section
/-! DEFINITION. The pairs (result, overflow value) of the instructions that write O (spec 10_state.md R21,
42_arithmetic.md R92 to R98) and the conditions of the IF instructions (44_conditional.md). Every formula is evaluated
on unbounded integers and masked to a Word (00_scope.md R8). -/

namespace Sys2Proof.Machine

/-- R92. -/
def addPair (a b : Word) : Word × Word :=
  let s := a.toNat + b.toNat
  (BitVec.ofNat 16 s, if s > 0xFFFF then 1 else 0)

/-- R93: `(a - b) mod 2^16` is `a - b + 0x10000` when `a < b`. -/
def subPair (a b : Word) : Word × Word :=
  (BitVec.ofNat 16 (a.toNat + 0x10000 - b.toNat), if a.toNat < b.toNat then 0xFFFF else 0)

/-- R94. -/
def mulPair (a b : Word) : Word × Word :=
  let p := a.toNat * b.toNat
  (BitVec.ofNat 16 p, BitVec.ofNat 16 (p >>> 16))

/-- R95, for `b` not 0. -/
def divPair (a b : Word) : Word × Word :=
  (BitVec.ofNat 16 (a.toNat / b.toNat), BitVec.ofNat 16 ((a.toNat <<< 16) / b.toNat))

/-- R97: `t = a * 2^b`, unbounded. -/
def shlPair (a b : Word) : Word × Word :=
  let t := a.toNat <<< b.toNat
  (BitVec.ofNat 16 t, BitVec.ofNat 16 (t >>> 16))

/-- R98: a logical shift. -/
def shrPair (a b : Word) : Word × Word :=
  (BitVec.ofNat 16 (a.toNat >>> b.toNat), BitVec.ofNat 16 ((a.toNat <<< 16) >>> b.toNat))

/-- R96: the remainder; 0 for `b = 0`. -/
def modResult (a b : Word) : Word :=
  if b = 0 then 0 else BitVec.ofNat 16 (a.toNat % b.toNat)

/-- U3, D6 (log entry 4): whether a formula needs a value outside a 32-bit signed integer, or a shift count of 32 or
more: where an implementation's own integers may give something else. -/
def widthMatters (op : ArithOp) (a b : Word) : Bool :=
  match op with
  | .add | .sub | .mod => false
  | .mul => decide (2 ^ 31 ≤ a.toNat * b.toNat)
  | .div => decide (2 ^ 31 ≤ a.toNat <<< 16)
  | .shl => decide (32 ≤ b.toNat) || decide (2 ^ 31 ≤ a.toNat <<< b.toNat)
  | .shr => decide (32 ≤ b.toNat) || decide (2 ^ 31 ≤ a.toNat <<< 16)

/-- The pair an operation gives under `ArithSemantics`: the mathematical one, or the free value of an implementation's
own integers where their width may matter. -/
def underSemantics (sem : ArithSemantics) (op : ArithOp) (pair : Word × Word) (a b : Word) : Word × Word :=
  match sem with
  | .mathematical => pair
  | .own => if widthMatters op a b then Config.ownArith op a b else pair

/-- R95 under `ArithSemantics`. Division by 0 gives (0, 0) under every semantics: "defined result is 0" (R111). -/
def divUnder (sem : ArithSemantics) (a b : Word) : Word × Word :=
  if b = 0 then (0, 0) else underSemantics sem .div (divPair a b) a b

/-! ### The conditions of R102 to R105 -/

/-- R102. -/
def condE (a b : Word) : Bool := a == b

/-- R103. -/
def condN (a b : Word) : Bool := a != b

/-- R104: unsigned. -/
def condG (a b : Word) : Bool := decide (a.toNat > b.toNat)

/-- R105. -/
def condB (a b : Word) : Bool := (a &&& b) != 0

end Sys2Proof.Machine
end

