-- ==== Sys2Proof/Machine/Arithmetic.lean ====
section
/-! DEFINITION. SET and the arithmetic instructions (spec 42_arithmetic.md R91 to R98). -/

namespace Sys2Proof.Machine

/-- R91. -/
def execSet (a b : Operand) (s : State) : Host.Outcome State Fault Refusal :=
  finish (.set a b) s.pc (applySet a b s)

/-- R92, under every `ArithSemantics`: no integers that hold the sum can differ (log entry 4). -/
def execAdd (a b : Operand) (s : State) : Host.Outcome State Fault Refusal :=
  finish (.add a b) s.pc (applyWithOverflow (fun _ x y => addPair x y) a b s)

/-- R93, under every `ArithSemantics` (log entry 4). -/
def execSub (a b : Operand) (s : State) : Host.Outcome State Fault Refusal :=
  finish (.sub a b) s.pc (applyWithOverflow (fun _ x y => subPair x y) a b s)

/-- R94. -/
def execMul (a b : Operand) (s : State) : Host.Outcome State Fault Refusal :=
  finish (.mul a b) s.pc (applyWithOverflow (fun sem x y => underSemantics sem .mul (mulPair x y) x y) a b s)

/-- R95. -/
def execDiv (a b : Operand) (s : State) : Host.Outcome State Fault Refusal :=
  finish (.div a b) s.pc (applyWithOverflow divUnder a b s)

/-- R96: O is not written. -/
def execMod (a b : Operand) (s : State) : Host.Outcome State Fault Refusal :=
  finish (.mod a b) s.pc (applyPlain modResult a b s)

/-- R97. -/
def execShl (a b : Operand) (s : State) : Host.Outcome State Fault Refusal :=
  finish (.shl a b) s.pc (applyWithOverflow (fun sem x y => underSemantics sem .shl (shlPair x y) x y) a b s)

/-- R98. -/
def execShr (a b : Operand) (s : State) : Host.Outcome State Fault Refusal :=
  finish (.shr a b) s.pc (applyWithOverflow (fun sem x y => underSemantics sem .shr (shrPair x y) x y) a b s)

end Sys2Proof.Machine
end

