-- ==== Sys2Proof/Machine/Bitwise.lean ====
section
/-! DEFINITION. The bitwise instructions (spec 43_bitwise.md R99 to R101). None writes O. -/

namespace Sys2Proof.Machine

/-- R99. -/
def execAnd (a b : Operand) (s : State) : Host.Outcome State Fault Refusal :=
  finish (.and a b) s.pc (applyPlain (fun x y => x &&& y) a b s)

/-- R100. -/
def execBor (a b : Operand) (s : State) : Host.Outcome State Fault Refusal :=
  finish (.bor a b) s.pc (applyPlain (fun x y => x ||| y) a b s)

/-- R101. -/
def execXor (a b : Operand) (s : State) : Host.Outcome State Fault Refusal :=
  finish (.xor a b) s.pc (applyPlain (fun x y => x ^^^ y) a b s)

end Sys2Proof.Machine
end

