-- ==== Sys2Proof/Machine/Conditional.lean ====
section
/-! DEFINITION. The conditional-skip instructions (spec 44_conditional.md R102 to R105). -/

namespace Sys2Proof.Machine

/-- R102. -/
def execIfe (a b : Operand) (s : State) : Host.Outcome State Fault Refusal :=
  finish (.ife a b) s.pc (applyIf condE a b s)

/-- R103. -/
def execIfn (a b : Operand) (s : State) : Host.Outcome State Fault Refusal :=
  finish (.ifn a b) s.pc (applyIf condN a b s)

/-- R104. -/
def execIfg (a b : Operand) (s : State) : Host.Outcome State Fault Refusal :=
  finish (.ifg a b) s.pc (applyIf condG a b s)

/-- R105. -/
def execIfb (a b : Operand) (s : State) : Host.Outcome State Fault Refusal :=
  finish (.ifb a b) s.pc (applyIf condB a b s)

end Sys2Proof.Machine
end

