-- ==== Sys2Proof/Machine/Extended.lean ====
section
/-! DEFINITION. The extended family: JSR and the halt sentinel (spec 45_extended.md R106, R107). -/

namespace Sys2Proof.Machine

/-- R106. -/
def execJsr (a : Operand) (s : State) : Host.Outcome State Fault Refusal :=
  finish (.jsr a) s.pc (applyJsr a s)

/-- R82, R107: the call returns `Halted` and nothing changes; the fields of the word are ignored. A halt is not
latched (R25): the next call fetches the same word again. -/
def execHalt (_fa _fb : Code) (s : State) : Host.Outcome State Fault Refusal :=
  .next (s.returning .halted)

end Sys2Proof.Machine
end

