-- ==== Sys2Proof/Machine/Step.lean ====
section
/-! DEFINITION. One call of `execute_next` (spec 41_cycle.md R80). -/

namespace Sys2Proof.Machine

/-- R80: refuse before the first load and after a fault; fetch; decode; halt before skip before execute. -/
def step (s : State) : Host.Outcome State Fault Refusal :=
  match stepRefusal s with
  | some r => .refused r
  | none =>
    let f := fetch s.beginCall
    let i := decodeWord f.1
    if skips i f.2 then .next (skipStep i f.2) else exec i f.2

/-- `s` with the instruction whose bits are `w` (numbered as spec/opcode_table.json numbers them) stored at PC as an
already loaded program: loaded, with no fault mark and no skip pending, so that the next step runs it. -/
def State.withFetchWord (s : State) (nbits w : Nat) : State :=
  { s with mem := s.mem.place s.pc (tableWords nbits w), loaded := true, faulted := none, skip := false }

end Sys2Proof.Machine
end

