-- ==== Sys2Proof/Machine/Ports.lean ====
section
/-! DEFINITION. The host interface (spec 60_exceptions.md R123, R124; 70_reset_and_hazards.md R126 to R130): the ports
other than `execute_next` as total functions of the state. A host call happens only between steps (D13). -/

namespace Sys2Proof.Machine

/-- R123: the calls of the host; `execute_next` is `step`. -/
inductive HostCall where
  | loadProgram (ws : List Word)
  | loadBinary (bs : List Byte)
  | readMemory (a : Word)
  | writeMemory (a v : Word)
  | readRegister (i : Nat)
  | writeRegister (i : Nat) (v : Word)
  | getPC
  | setPC (v : Word)
  | getSP
  | setSP (v : Word)
  | getO
  | setO (v : Word)
deriving DecidableEq, Repr

/-- R123: the replies: done, with the Word returned if the port returns one; `Failed` (R130); `Refused`. The last two
change nothing. -/
inductive PortReply where
  | ok (v : Option Word) (s : State)
  | failed
  | refused (r : Refusal)
deriving DecidableEq, Repr

/-- R128: `reset()`: memory, registers, `skip` and the fault mark. It fires no notification (D16). -/
def State.doReset (s : State) : State :=
  { s with regs := State.reset.regs, pc := 0, sp := 0, o := 0, skip := false, mem := [], faulted := none }

/-- R129: write the Words at successive addresses, each with its events and then its `ValueLoaded`. -/
def loadWords (s : State) (a : Word) : List Word → State
  | [] => s
  | w :: ws =>
    let t := s.memWrite a w
    loadWords { t with events := t.events ++ [.valueLoaded a w] } (a + 1) ws

/-- R129: `load_program`. -/
def loadProgram (ws : List Word) (s : State) : PortReply :=
  if ws.length > 0x10000 then .refused .programTooLong
  else .ok none { loadWords s.beginCall.doReset 0 ws with loaded := true }

/-- R130: `load_binary`. -/
def loadBinary (bs : List Byte) (s : State) : PortReply :=
  match wordsOfBytes bs with
  | none => .failed
  | some ws => loadProgram ws s

/-- R123: `read_memory`, through `MemRead` (D13). -/
def readMemory (a : Word) (s : State) : PortReply :=
  .ok (some (s.beginCall.memRead a).1) (s.beginCall.memRead a).2

/-- R123: `write_memory`, through `MemWrite`. -/
def writeMemory (a v : Word) (s : State) : PortReply := .ok none (s.beginCall.memWrite a v)

/-- R124: `read_register`; an index outside 0 to 7 is refused. -/
def readRegister (i : Nat) (s : State) : PortReply :=
  if i < 8 then .ok (some (s.regs.get (Reg.ofIndex i))) s.beginCall else .refused .registerIndexOutOfRange

/-- R124: `write_register`; an index outside 0 to 7 is refused. -/
def writeRegister (i : Nat) (v : Word) (s : State) : PortReply :=
  if i < 8 then .ok none (s.beginCall.setReg (Reg.ofIndex i) v) else .refused .registerIndexOutOfRange

/-- R123: every port. -/
def hostCall (c : HostCall) (s : State) : PortReply :=
  match c with
  | .loadProgram ws => loadProgram ws s
  | .loadBinary bs => loadBinary bs s
  | .readMemory a => readMemory a s
  | .writeMemory a v => writeMemory a v s
  | .readRegister i => readRegister i s
  | .writeRegister i v => writeRegister i v s
  | .getPC => .ok (some s.pc) s.beginCall
  | .setPC v => .ok none (s.beginCall.setPc v)
  | .getSP => .ok (some s.sp) s.beginCall
  | .setSP v => .ok none (s.beginCall.setSp v)
  | .getO => .ok (some s.o) s.beginCall
  | .setO v => .ok none (s.beginCall.setO v)

/-- R123: the calls that run `reset()`: the only ones that clear `skip` or the fault mark from outside. -/
def HostCall.isLoad : HostCall → Bool
  | .loadProgram _ | .loadBinary _ => true
  | .readMemory _ | .writeMemory _ _ | .readRegister _ | .writeRegister _ _ => false
  | .getPC | .setPC _ | .getSP | .setSP _ | .getO | .setO _ => false

/-- R4: the two agents' actions: the core's `execute_next`, and a call of the host between steps. -/
inductive Action where
  | executeNext
  | host (c : HostCall)
deriving DecidableEq, Repr

/-- R4, R88, R123: the state that an action leaves. A fault leaves the state it carries; a refused or failed call
leaves the state as it was. -/
def act (a : Action) (s : State) : State :=
  match a with
  | .executeNext =>
    match step s with
    | .next t => t
    | .fault (.invalidOperation _ left) => left
    | .refused _ => s
  | .host c =>
    match hostCall c s with
    | .ok _ t => t
    | .failed => s
    | .refused _ => s

end Sys2Proof.Machine
end

