-- ==== Sys2Proof/Machine/Run.lean ====
section
/-! DEFINITION. A run (spec 41_cycle.md R89, D29): calls of `execute_next` until the first that is not `Executed`, under
fuel; and the notifications of a run. -/

namespace Sys2Proof.Machine

/-- R89: how a run ends: normally at `Halted`, abnormally at a fault, or not within the fuel. -/
inductive RunEnd where
  | halted (s : State)
  | faulted (f : Fault)
  | refused (r : Refusal)
  | outOfFuel (s : State)
deriving DecidableEq, Repr

/-- R89, D29: at most `fuel` calls. -/
def runFor : Nat → State → RunEnd
  | 0, s => .outOfFuel s
  | fuel + 1, s =>
    match step s with
    | .next t => if t.result = some .halted then .halted t else runFor fuel t
    | .fault f => .faulted f
    | .refused r => .refused r

/-- R121: the ordered notifications of the calls of such a run. -/
def runEvents : Nat → State → List Event
  | 0, _ => []
  | fuel + 1, s =>
    match step s with
    | .next t => if t.result = some .halted then t.events else t.events ++ runEvents fuel t
    | .fault (.invalidOperation _ left) => left.events
    | .refused _ => []

end Sys2Proof.Machine
end

