-- ==== Sys2Proof/Safety.lean ====
section
/-! DEFINITION. What claims call a good state, a reachable state and a safe run. -/

namespace Sys2Proof.Safety

open Sys2Proof.Machine

/-- The invariant of every state: memory in its canonical form, and a call that returned `Halted` left PC on a word
that halts again (R82, "halting is not latched"). -/
def MachineInv (s : State) : Prop :=
  s.mem.wf = true ∧ (s.result = some .halted → (decodeWord (s.cell s.pc)).isHalt = true)

/-- The states that the two agents can bring the machine to from reset, under any choice of the parameters. -/
inductive Reachable : State → Prop where
  | reset (p : Params) : Reachable { State.reset with params := p }
  | act {s : State} (a : Action) : Reachable s → Reachable (Machine.act a s)

/-- A call that neither faults nor is refused. -/
def CompletesCall (s : State) : Prop := ∃ t, step s = .next t

/-- A run of at most `fuel` calls with no fault and no refusal. -/
def SafeRun (fuel : Nat) (s : State) : Prop :=
  match runFor fuel s with
  | .halted _ | .outOfFuel _ => True
  | .faulted _ | .refused _ => False

end Sys2Proof.Safety
end

