-- ==== Sys2Proof/Certificates/Slice0/Obligations.lean ====
section
/-! DEFINITION. The statements for the provers. Each docstring names the rule or section of spec/ it formalises. -/

namespace Sys2Proof.Claims

open Sys2Proof.Machine

/-! ### Words the statements share -/

/-- The two operands of an instruction that reads operand A and writes it back (R86, `apply_binary`). -/
def rmwOperands : Instr → Option (Operand × Operand)
  | .add a b | .sub a b | .mul a b | .div a b | .shl a b | .shr a b => some (a, b)
  | .mod a b | .and a b | .bor a b | .xor a b => some (a, b)
  | .set _ _ | .ife _ _ | .ifn _ _ | .ifg _ _ | .ifb _ _ | .jsr _ | .halt _ _ => none

/-- The two operands of an IF (R86, `apply_if`). -/
def ifOperands : Instr → Option (Operand × Operand)
  | .ife a b | .ifn a b | .ifg a b | .ifb a b => some (a, b)
  | .set _ _ | .add _ _ | .sub _ _ | .mul _ _ | .div _ _ | .mod _ _ | .shl _ _ | .shr _ _ => none
  | .and _ _ | .bor _ _ | .xor _ _ | .jsr _ | .halt _ _ => none

/-- R21: the instructions that write O as a side effect. -/
def writesOverflow : Instr → Bool
  | .add _ _ | .sub _ _ | .mul _ _ | .div _ _ | .shl _ _ | .shr _ _ => true
  | .set _ _ | .mod _ _ | .and _ _ | .bor _ _ | .xor _ _ | .ife _ _ | .ifn _ _ | .ifg _ _ | .ifb _ _ => false
  | .jsr _ | .halt _ _ => false

/-- R86: the operand that an instruction writes, if it writes one. -/
def destination : Instr → Option Operand
  | .set a _ | .add a _ | .sub a _ | .mul a _ | .div a _ | .mod a _ | .shl a _ | .shr a _ => some a
  | .and a _ | .bor a _ | .xor a _ => some a
  | .ife _ _ | .ifn _ _ | .ifg _ _ | .ifb _ _ | .jsr _ | .halt _ _ => none

/-- R85: the instructions that set `pcWritten`. -/
def jumps (i : Instr) : Bool :=
  destination i == some .pc ||
    match i with
    | .jsr _ => true
    | _ => false

/-- The Word `v`, written through `dst` in state `s`, stands in that operand's location in state `t` (R65). -/
def Stored (dst : Resolved) (s t : State) (v : Word) : Prop :=
  match dst with
  | .reg r => t.regs.get r = v
  | .ind r => t.cell (s.regs.get r) = v
  | .indNext _ nw cr => t.cell (nw + cr) = v
  | .pop sa => t.cell (popAddr sa s) = v
  | .peek => t.cell s.sp = v
  | .push => t.cell (s.sp - 1) = v ∧ t.sp = s.sp - 1
  | .sp => t.sp = v
  | .pc => t.pc = v
  | .o => t.o = v
  | .nextInd nw => t.cell nw = v
  | .next _ | .lit _ => False

/-- The cell of the next word an operand consumes. -/
def nextWordCells (op : Operand) (s : State) : List Word := if op.nextWords = 1 then [s.pc + 1] else []

/-- The state after a read, whether or not it faulted. -/
def afterRd (r : Resolved) (s : State) : State :=
  match rd r s with
  | .ok _ t => t
  | .raise _ _ t => t

/-- The cells that the two `process` and the two `rd` of an instruction read, each in the state it is read in. -/
def cellsRead (a b : Operand) (s : State) : List Word :=
  let pa := process a s
  let pb := process b pa.2
  nextWordCells a s ++ nextWordCells b pa.2 ++ (pa.1.readAddr pb.2).toList ++
    (pb.1.readAddr (afterRd pa.1 pb.2)).toList

/-- The same for SET, which does not read operand A. -/
def cellsReadBySet (a b : Operand) (s : State) : List Word :=
  let pa := process a s
  let pb := process b pa.2
  nextWordCells a s ++ nextWordCells b pa.2 ++ (pb.1.readAddr pb.2).toList

/-- The same for the one operand of JSR. -/
def cellsReadByJsr (a : Operand) (s : State) : List Word :=
  nextWordCells a s ++ ((process a s).1.readAddr (process a s).2).toList

/-- R31: what a cell holds after the cells of `cs` were read in state `s`: a keyboard cell that was read is 0. -/
def afterReading (cs : List Word) (s : State) (x : Word) : Word :=
  if regionOf x = .keyboard ∧ x ∈ cs then 0 else s.cell x

/-- The move of SP by one access of an operand (R69). -/
def popMoves (op : Operand) : Word := if op = .pop then 1 else 0

/-- R88, R114: the cells that the reads of a faulting instruction read before the raise: the next words, and the operand
cells read before the first read of PUSH. -/
def cellsReadBeforeRaise (a b : Operand) (s : State) : List Word :=
  if a = .push then nextWordCells a s ++ nextWordCells b (process a s).2 else cellsRead a b s

/-- R88, R114: how far the POP reads made before the raise moved SP. -/
def movesBeforeRaise (a b : Operand) : Word := if a = .push then 0 else popMoves a + popMoves b

/-- The same two for each instruction that can fault. SET does not read operand A; JSR faults at its only read. -/
def faultReads (i : Instr) (s : State) : List Word × Word :=
  match i with
  | .set a b => (cellsReadBySet a b s, popMoves b)
  | .add a b | .sub a b | .mul a b | .div a b | .mod a b => (cellsReadBeforeRaise a b s, movesBeforeRaise a b)
  | .shl a b | .shr a b | .and a b | .bor a b | .xor a b => (cellsReadBeforeRaise a b s, movesBeforeRaise a b)
  | .ife a b | .ifn a b | .ifg a b | .ifb a b => (cellsReadBeforeRaise a b s, movesBeforeRaise a b)
  | .jsr a => (cellsReadByJsr a s, 0)
  | .halt _ _ => ([], 0)

/-- What a raise at a read leaves (R88): the registers and O as they were, SP as the POP reads before it moved it, and
memory as the reads before it left it. -/
def LeftByReads (a b : Operand) (s left : State) : Prop :=
  left.regs = s.regs ∧ left.o = s.o ∧ left.sp = s.sp + movesBeforeRaise a b ∧
    ∀ x, left.cell x = afterReading (cellsReadBeforeRaise a b s) s x

/-- R50's table: the modes of the operand codes 0x00 to 0x1F, in order. -/
def operandTable : List Operand :=
  [.reg .a, .reg .b, .reg .c, .reg .x, .reg .y, .reg .z, .reg .i, .reg .j] ++
  [.ind .a, .ind .b, .ind .c, .ind .x, .ind .y, .ind .z, .ind .i, .ind .j] ++
  [.indNext .a, .indNext .b, .indNext .c, .indNext .x, .indNext .y, .indNext .z, .indNext .i, .indNext .j] ++
  [.pop, .peek, .push, .sp, .pc, .o, .nextInd, .next]

/-- The fields that no instruction writes when it completes. -/
def KeepsControl (s t : State) : Prop :=
  t.loaded = s.loaded ∧ t.faulted = s.faulted ∧ t.params = s.params

/-- R110: the instruction makes an access its operand does not allow. -/
def illegalAccess (i : Instr) : Bool :=
  match i with
  | .set a b => !readable b || !writable a
  | .add a b | .sub a b | .mul a b | .div a b | .mod a b | .shl a b | .shr a b =>
    !readable a || !readable b || !writable a
  | .and a b | .bor a b | .xor a b => !readable a || !readable b || !writable a
  | .ife a b | .ifn a b | .ifg a b | .ifb a b => !readable a || !readable b
  | .jsr a => !readable a
  | .halt _ _ => false

/-- R113: the kind and operand code of the first disallowed access of an instruction that makes one: a read of PUSH
comes before a write of operand A. -/
def firstIllegal (i : Instr) : FaultKind × Code :=
  match i with
  | .set a b => if b = .push then (.readOfWriteOnly, 0x1A) else (.writeOfReadOnly, encodeOperand a)
  | .add a b | .sub a b | .mul a b | .div a b | .mod a b | .shl a b | .shr a b =>
    if a = .push ∨ b = .push then (.readOfWriteOnly, 0x1A) else (.writeOfReadOnly, encodeOperand a)
  | .and a b | .bor a b | .xor a b =>
    if a = .push ∨ b = .push then (.readOfWriteOnly, 0x1A) else (.writeOfReadOnly, encodeOperand a)
  | .ife _ _ | .ifn _ _ | .ifg _ _ | .ifb _ _ | .jsr _ | .halt _ _ => (.readOfWriteOnly, 0x1A)

/-- The call ends in the fault of this kind and operand code, with the information of R112, and leaves a state that
satisfies `P`. -/
def FaultsWith (i : Instr) (s : State) (k : FaultKind) (c : Code) (P : State → Prop) : Prop :=
  ∃ left, exec i s = .fault (.invalidOperation { kind := k, code := c, word := encode i, addr := s.pc } left) ∧ P left

/-- The word of a basic instruction with opcode `op` (R47), as a number. -/
def HasBasicWord (mk : Operand → Operand → Instr) (op : Nat) : Prop :=
  ∀ a b, (encode (mk a b)).toNat = (encodeOperand b).toNat * 0x400 + (encodeOperand a).toNat * 0x10 + op

/-- The faults of an instruction that reads A, reads B and writes A (R92, R99: "A's read first", "after both reads"). -/
def RmwFaults (mk : Operand → Operand → Instr) : Prop :=
  ∀ a b s,
    (a = .push → FaultsWith (mk a b) s .readOfWriteOnly 0x1A (LeftByReads a b s)) ∧
    (readable a = true → b = .push → FaultsWith (mk a b) s .readOfWriteOnly 0x1A (LeftByReads a b s)) ∧
    (readable a = true → readable b = true → writable a = false →
      ∃ v s1, readBoth a b s = .ok v s1 ∧
        FaultsWith (mk a b) s .writeOfReadOnly (encodeOperand a) fun left =>
          left.sp = s1.sp ∧ left.regs = s.regs ∧ (∀ x, left.cell x = s1.cell x) ∧
          (s.params.overflowWriteOrder = .resultThenOverflow → left.o = s.o))

/-- An instruction that computes a result and an overflow value from the values of A and B (R86, R87). For every
operand form that can be read and written it completes, with the result in A's location and the overflow value in O;
where A is O the parameter says which remains, and where the write of A faults it says whether O was written. `fr` and
`fo` are the spec's formulas on unbounded integers, which hold where `guard` does. -/
def OverflowRule (mk : Operand → Operand → Instr) (op : Nat) (guard : Params → Word → Word → Prop)
    (fr fo : Nat → Nat → Nat) : Prop :=
  HasBasicWord mk op ∧ RmwFaults mk ∧
  (∀ a b s, readable a = true → writable a = true → readable b = true →
    ∃ v s1 t r ovf, readBoth a b s = .ok v s1 ∧ exec (mk a b) s = .next t ∧ t.result = some .executed ∧
      (guard s.params v.a v.b →
        r = BitVec.ofNat 16 (fr v.a.toNat v.b.toNat) ∧ ovf = BitVec.ofNat 16 (fo v.a.toNat v.b.toNat)) ∧
      (a ≠ .o → Stored v.dst s1 t r ∧ t.o = ovf) ∧
      (a = .o → t.o =
        match s.params.overflowWriteOrder with
        | .resultThenOverflow => ovf
        | .overflowThenResult => r)) ∧
  ∀ a b s, readable a = true → writable a = false → readable b = true →
    s.params.overflowWriteOrder = .overflowThenResult →
    ∃ v s1, readBoth a b s = .ok v s1 ∧ (guard s.params v.a v.b →
      FaultsWith (mk a b) s .writeOfReadOnly (encodeOperand a) fun left => left.o = BitVec.ofNat 16 (fo v.a.toNat v.b.toNat))

/-- An instruction that computes a result only: O is written only where it is operand A. -/
def PlainRule (mk : Operand → Operand → Instr) (op : Nat) (f : Nat → Nat → Nat) : Prop :=
  HasBasicWord mk op ∧ RmwFaults mk ∧
  (∀ a b s, readable a = true → writable a = true → readable b = true →
    ∃ v s1 t, readBoth a b s = .ok v s1 ∧ exec (mk a b) s = .next t ∧ t.result = some .executed ∧
      Stored v.dst s1 t (BitVec.ofNat 16 (f v.a.toNat v.b.toNat)) ∧ (a ≠ .o → t.o = s.o)) ∧
  ∀ a b s, readable a = true → writable a = false → readable b = true →
    FaultsWith (mk a b) s .writeOfReadOnly (encodeOperand a) fun left => left.o = s.o

/-- An IF (R86): both operands are read, nothing is written but `skip`, which a false condition sets and a true one
leaves as it was; PC goes past the instruction. -/
def IfRule (mk : Operand → Operand → Instr) (op : Nat) (cond : Nat → Nat → Prop) : Prop :=
  HasBasicWord mk op ∧
  (∀ a b s,
    (a = .push → FaultsWith (mk a b) s .readOfWriteOnly 0x1A (LeftByReads a b s)) ∧
    (readable a = true → b = .push → FaultsWith (mk a b) s .readOfWriteOnly 0x1A (LeftByReads a b s))) ∧
  ∀ a b s, readable a = true → readable b = true →
    ∃ v s1 t, readBoth a b s = .ok v s1 ∧ exec (mk a b) s = .next t ∧ t.result = some .executed ∧
      (cond v.a.toNat v.b.toNat → t.skip = s.skip) ∧ (¬cond v.a.toNat v.b.toNat → t.skip = true) ∧
      t.pc = s.pc + BitVec.ofNat 16 (mk a b).length ∧ t.regs = s.regs ∧ t.o = s.o ∧ t.sp = s1.sp ∧
      ∀ x, t.cell x = s1.cell x

end Sys2Proof.Claims

open Sys2Proof Sys2Proof.Machine Sys2Proof.Safety Sys2Proof.Claims

/-! ### Encoding -/

/-- R46, R47, R48, R53: every well-formed instruction, with any next words, decodes from its words to itself, and the
words after it are left over. The opcode numbers 2 to F are R51's inference (log entry 6). -/
def Obligations.DecodeOfEncodeIsTheInstruction : Prop :=
  ∀ i : Instr, i.wf = true → decodeWord (encode i) = i ∧
    ∀ next rest : List Word, next.length + 1 = i.length →
      decode (encodeWords i next ++ rest) = .ok { instr := i, next := next, rest := rest }

/-- R53, R56: every Word is the word of exactly one well-formed instruction: the one it decodes to. The opcode numbers
2 to F are R51's inference (log entry 6). That two halt words are words of two instructions is the model's choice (log
entry 19): R53 decodes them all to None. -/
def Obligations.EncodeOfDecodeIsTheWord : Prop :=
  ∀ w : Word, (decodeWord w).wf = true ∧ encode (decodeWord w) = w ∧
    ∀ i : Instr, i.wf = true → encode i = w → i = decodeWord w

/-- R52, R107: the halt words are exactly the opcode-0 words without the JSR marker in bits 9:4, and the JSR words
exactly those with it, whose operand is in bits 15:10. -/
def Obligations.OpcodeZeroWordsAreJsrOrHalt : Prop :=
  ∀ w : Word,
    ((decodeWord w).isHalt = true ↔ w.toNat % 0x10 = 0 ∧ w.toNat / 0x10 % 0x40 ≠ 1) ∧
    ((∃ a, decodeWord w = .jsr a) ↔ w.toNat % 0x10 = 0 ∧ w.toNat / 0x10 % 0x40 = 1) ∧
    ∀ a, decodeWord w = .jsr a → (encodeOperand a).toNat = w.toNat / 0x400

/-- R49: the length told from the instruction word alone is that of the decoded instruction, 1 to 3 Words. R49 is
marked derived. -/
def Obligations.LengthIsToldByTheFirstWord : Prop :=
  ∀ w : Word, lengthOfWord w = (decodeWord w).length ∧ 1 ≤ lengthOfWord w ∧ lengthOfWord w ≤ 3

/-- 95_test_vectors.md T1 to T13: words written out there decode as it says; and each of R50's 64 operand codes
selects its mode, in the field of operand A (codes 0x00 to 0x1F) and of operand B. The opcode numbers 2 to F are R51's
inference (log entry 6). -/
def Obligations.SpecWordsDecode : Prop :=
  decodeWord 0xA861 = .set (.reg .i) (.lit 10) ∧ decodeWord 0x7C01 = .set (.reg .a) .next ∧
  decodeWord 0x7DE1 = .set .nextInd .next ∧ decodeWord 0x9010 = .jsr (.lit 4) ∧ decodeWord 0x7C10 = .jsr .next ∧
  decodeWord 0x0010 = .jsr (.reg .a) ∧ decodeWord 0x0000 = .halt 0x00 0x00 ∧ decodeWord 0x0020 = .halt 0x02 0x00 ∧
  decodeWord 0xFC00 = .halt 0x00 0x3F ∧ decodeWord 0xFFF0 = .halt 0x3F 0x3F ∧
  decodeWord 0x0004 = .mul (.reg .a) (.reg .a) ∧ decodeWord 0xFFFF = .ifb (.lit 31) (.lit 31) ∧
  decodeWord 0x4501 = .set (.indNext .a) (.indNext .b) ∧
  (List.range 0x20).map (fun c => decodeWord (BitVec.ofNat 16 (c * 0x10 + 1))) =
    operandTable.map (fun op => .set op (.reg .a)) ∧
  (List.range 0x20).map (fun c => decodeWord (BitVec.ofNat 16 (c * 0x400 + 0x10))) = operandTable.map .jsr ∧
  ∀ v : BitVec 5, decodeWord (BitVec.ofNat 16 ((0x20 + v.toNat) * 0x400 + 0x10)) = .jsr (.lit v)

/-! ### The step -/

/-- R80, R81: when the cell at PC holds the word of a well-formed instruction that is not to be skipped, the step is
`exec` of it, in the state after the fetch, which differs by the emptied output of the call and, under
`FetchClearsKeyboard`, by the cleared keyboard cell. The refusals, the order of the tests and the fetch's clear are
the decisions D7, D9, D11 and D12 (log entries 5, 8, 11 and 12). -/
def Obligations.StepRunsTheDecodedInstruction : Prop :=
  ∀ (i : Instr) (s : State), i.wf = true → s.cell s.pc = encode i → s.loaded = true → s.faulted = none →
    (s.skip = false ∨ i.isHalt = true) →
    step s = exec i (if s.params.fetchClearsKeyboard = true then s.beginCall.afterRead s.pc else s.beginCall)

/-- R83: with `skip` set, the step passes over the instruction at PC: no operand is read, nothing is written, no fault
is raised; PC goes to the word after its last word and `skip` is cleared. That the skipped next words are not read is
decision D8 (log entry 15). -/
def Obligations.PendingSkipPassesOverOneInstruction : Prop :=
  ∀ (i : Instr) (s : State), i.wf = true → i.isHalt = false → s.cell s.pc = encode i → s.loaded = true →
    s.faulted = none → s.skip = true →
    ∃ t, step s = .next t ∧ t.result = some .executed ∧ t.pc = s.pc + BitVec.ofNat 16 i.length ∧ t.skip = false ∧
      t.regs = s.regs ∧ t.sp = s.sp ∧ t.o = s.o ∧ KeepsControl s t ∧
      ∀ x, t.cell x = if s.params.fetchClearsKeyboard = true then afterReading [s.pc] s x else s.cell x

/-- R82: at a halt word the call returns `Halted`, whether or not a skip is pending, and changes nothing but the
keyboard cell the fetch clears. That a halt comes before a pending skip is decision D9, and that it is a next state
whose `result` says so is the model's form (log entries 9 and 11). -/
def Obligations.HaltWordHaltsAndChangesNothing : Prop :=
  ∀ (i : Instr) (s : State), i.wf = true → i.isHalt = true → s.cell s.pc = encode i → s.loaded = true →
    s.faulted = none →
    ∃ t, step s = .next t ∧ t.result = some .halted ∧ t.pc = s.pc ∧ t.skip = s.skip ∧ t.regs = s.regs ∧ t.sp = s.sp ∧
      t.o = s.o ∧ KeepsControl s t ∧
      ∀ x, t.cell x = if s.params.fetchClearsKeyboard = true then afterReading [s.pc] s x else s.cell x

/-- R82: halting is not latched: a call after a halted one halts again with the same registers and memory. Decision
D22 (log entry 11). -/
def Obligations.HaltRepeats : Prop :=
  ∀ s t, step s = .next t → t.result = some .halted →
    ∃ u, step t = .next u ∧ u.result = some .halted ∧ u.pc = t.pc ∧ u.regs = t.regs ∧ u.sp = t.sp ∧ u.o = t.o ∧
      u.skip = t.skip ∧ ∀ x, u.cell x = t.cell x

/-- R80, R126, R26: a step is refused exactly before the first load and while the fault mark is set. Decisions D11 and
D12 (log entries 8 and 12). -/
def Obligations.StepIsRefusedExactlyWhenNotLoadedOrFaulted : Prop :=
  ∀ s, (s.loaded = false → step s = .refused .notLoaded) ∧
    (s.loaded = true → s.faulted ≠ none → step s = .refused .faultMarkSet) ∧
    (s.loaded = true → s.faulted = none → ∀ r, step s ≠ .refused r)

/-- R110: an executed instruction faults exactly when it makes an access its operand does not allow; otherwise it
completes; it is never refused. R110 is marked derived; decisions D2 and D4 (log entry 10). -/
def Obligations.FaultsExactlyAtIllegalAccess : Prop :=
  ∀ i s, (illegalAccess i = true → ∃ f, exec i s = .fault f) ∧
    (illegalAccess i = false → ∃ t, exec i s = .next t)

/-- R112, R113, R88, R114: what a fault reports and leaves: the first disallowed access, the instruction word and its
address, kept with the fault mark; PC on the instruction's last Word; no general register written; SP as the POP reads
before the raise moved it; memory as the reads before the raise left it, keyboard cells cleared and nothing stored; O
unchanged unless the instruction writes O before its result and its write faults (OverflowRule says what O holds
then). The record is decision D19, the mark D12, the orders D2 and D3 (log entries 3, 10 and 12). -/
def Obligations.FaultReportsFirstAccessAndIsNotUndone : Prop :=
  ∀ i s f, exec i s = .fault f →
    ∃ left, f = .invalidOperation
        { kind := (firstIllegal i).1, code := (firstIllegal i).2, word := encode i, addr := s.pc } left ∧
      left.faulted = some { kind := (firstIllegal i).1, code := (firstIllegal i).2, word := encode i, addr := s.pc } ∧
      left.pc = s.pc + BitVec.ofNat 16 (i.length - 1) ∧ left.regs = s.regs ∧ left.skip = s.skip ∧
      left.loaded = s.loaded ∧ left.params = s.params ∧
      left.sp = s.sp + (faultReads i s).2 ∧
      (s.params.overflowWriteOrder = .resultThenOverflow ∨ writesOverflow i = false ∨
        (firstIllegal i).1 = .readOfWriteOnly → left.o = s.o) ∧
      ∀ x, left.cell x = afterReading (faultReads i s).1 s x

/-- R85: an instruction that does not write PC leaves it past its last Word. Which writes count as a jump is decision
D18 (log entry 16). -/
def Obligations.PcAdvancesByTheLength : Prop :=
  ∀ i s t, exec i s = .next t → jumps i = false → i.isHalt = false → t.pc = s.pc + BitVec.ofNat 16 i.length

/-- R22, R83: a step sets `skip` only by an IF, and clears it exactly when it passes over an instruction. That a halt
word keeps a pending skip is decision D9 (log entry 11). -/
def Obligations.SkipStateMachine : Prop :=
  ∀ s t, step s = .next t →
    (s.skip = true → t.skip = (decodeWord (s.cell s.pc)).isHalt) ∧
    (s.skip = false → t.skip = true → (ifOperands (decodeWord (s.cell s.pc))).isSome = true)

/-! ### Whole-machine rules -/

/-- R14: a step changes a general register only as operand A of a writing instruction. -/
def Obligations.OnlyOperandAChangesARegister : Prop :=
  ∀ s t r, step s = .next t → t.regs.get r ≠ s.regs.get r →
    destination (decodeWord (s.cell s.pc)) = some (.reg r)

/-- R21: a step changes O only by an instruction that writes it as a side effect, or that has O as operand A. -/
def Obligations.OnlyOverflowWritersChangeO : Prop :=
  ∀ s t, step s = .next t → t.o ≠ s.o →
    writesOverflow (decodeWord (s.cell s.pc)) = true ∨ destination (decodeWord (s.cell s.pc)) = some .o

/-- R33, R121: notifications never change state: what the output held before makes no difference to an instruction.
The output field is the model's own (log entry 9). -/
def Obligations.EventsNeverInfluenceExecution : Prop :=
  ∀ (i : Instr) (s : State) (evs : List Event),
    (∀ t, exec i s = .next t → ∃ u, exec i { s with events := evs } = .next u ∧
      { u with events := [] } = { t with events := [] }) ∧
    (∀ info l, exec i s = .fault (.invalidOperation info l) →
      ∃ l', exec i { s with events := evs } = .fault (.invalidOperation info l') ∧
        { l' with events := [] } = { l with events := [] })

/-- R6: no action of either agent changes a parameter, and none undoes the load. That the parameters stand in the
state and survive a load is the model's choice (log entries 2 to 5 and 7). -/
def Obligations.ParametersAreFixed : Prop :=
  ∀ a s, (act a s).params = s.params ∧ (s.loaded = true → (act a s).loaded = true)

/-- R26, R115: the fault mark, once set, stays until a load, which clears it; only a faulting call sets it. Decision
D12 (log entry 12). -/
def Obligations.FaultMarkIsClearedOnlyByALoad : Prop :=
  ∀ a s,
    (∀ info, s.faulted = some info → (act a s).faulted = some info ∨
      ∃ c, a = .host c ∧ c.isLoad = true ∧ (act a s).faulted = none) ∧
    (∀ info, s.faulted = none → (act a s).faulted = some info →
      a = .executeNext ∧ step s = .fault (.invalidOperation info (act a s)))

/-- The invariant at reset, under every choice of the parameters. The invariant is the model's own (log entries 1 and
11). -/
def Obligations.ResetMeetsTheInvariant : Prop :=
  ∀ p : Params, MachineInv { State.reset with params := p }

/-- Every step keeps the invariant: memory stays canonical, and a halted call leaves PC on a halt word. The invariant
is the model's own (log entries 1 and 11). -/
def Obligations.StepKeepsTheInvariant : Prop :=
  ∀ s, MachineInv s → (∀ t, step s = .next t → MachineInv t) ∧
    ∀ info left, step s = .fault (.invalidOperation info left) → MachineInv left

/-- Every action of either agent, the host's loads and writes included, keeps the invariant and the loaded mark, from
every state that meets them; and so every state the two agents can reach from reset does. The invariant, and that the
model starts loaded, are the model's own (log entries 1, 7 and 11). -/
def Obligations.EveryActionKeepsTheInvariant : Prop :=
  (∀ a s, MachineInv s → s.loaded = true → MachineInv (act a s) ∧ (act a s).loaded = true) ∧
    ∀ s, Reachable s → MachineInv s ∧ s.loaded = true

/-! ### Frames -/

/-- R86, R87, R31: the frame of ADD, SUB, MUL, DIV, MOD, SHL, SHR, AND, BOR and XOR: registers other than operand A,
SP moved by POP accesses only (the second access of POP as operand A under `PerAccess` only) unless SP is operand A, O
unless the instruction writes it, `skip`, and every cell but the one stored to, save that a keyboard cell that was
read is cleared. Decisions D2, D3 and D5 (log entries 2, 3 and 10). -/
def Obligations.ReadModifyWriteFrame : Prop :=
  ∀ i a b s v s1 t, rmwOperands i = some (a, b) → readBoth a b s = .ok v s1 → exec i s = .next t →
    (∀ r, a ≠ .reg r → t.regs.get r = s.regs.get r) ∧
    (a ≠ .sp → t.sp = s.sp + popMoves a + popMoves b +
      if s.params.stackRmwMode = .perAccess then popMoves a else 0) ∧
    (writesOverflow i = false → a ≠ .o → t.o = s.o) ∧ t.skip = s.skip ∧ KeepsControl s t ∧
    ∀ x, v.dst.writeAddr s1 ≠ some x → t.cell x = afterReading (cellsRead a b s) s x

/-- R91, R31: the frame of SET. That operand A is not read is decision D4 (log entry 10). -/
def Obligations.SetFrame : Prop :=
  ∀ a b s v s1 t, readSource a b s = .ok v s1 → exec (.set a b) s = .next t →
    (∀ r, a ≠ .reg r → t.regs.get r = s.regs.get r) ∧
    (a ≠ .sp → a ≠ .push → t.sp = s.sp + popMoves a + popMoves b) ∧
    (a = .push → t.sp = s.sp + popMoves b - 1) ∧
    (a ≠ .o → t.o = s.o) ∧ t.skip = s.skip ∧ KeepsControl s t ∧
    ∀ x, v.2.writeAddr s1 ≠ some x → t.cell x = afterReading (cellsReadBySet a b s) s x

/-- R102 to R105, R31: the frame of the IF instructions. They store nothing. Decision D2 (log entry 10). -/
def Obligations.IfFrame : Prop :=
  ∀ i a b s t, ifOperands i = some (a, b) → exec i s = .next t →
    t.regs = s.regs ∧ t.sp = s.sp + popMoves a + popMoves b ∧ t.o = s.o ∧ KeepsControl s t ∧
    ∀ x, t.cell x = afterReading (cellsRead a b s) s x

/-- R106, R31: the frame of JSR, which stores to the one cell it pushes to. That the operand is read before SP moves
is decision D4 (log entry 10). -/
def Obligations.JsrFrame : Prop :=
  ∀ a s t, exec (.jsr a) s = .next t →
    t.regs = s.regs ∧ t.sp = s.sp + popMoves a - 1 ∧ t.o = s.o ∧ t.skip = s.skip ∧ KeepsControl s t ∧
    ∀ x, x ≠ s.sp + popMoves a - 1 → t.cell x = afterReading (cellsReadByJsr a s) s x

/-! ### SET and the arithmetic instructions -/

/-- R91: SET copies operand B's value to operand A, which is not read; it completes for every writable A and readable
B and faults on the others, after B's read where A is read-only. That operand A is not read is decision D4 (log entry
10). -/
def Obligations.SetCopies : Prop :=
  HasBasicWord .set 0x1 ∧ ∀ a b s,
    (writable a = true → readable b = true →
      ∃ v s1 t, readSource a b s = .ok v s1 ∧ exec (.set a b) s = .next t ∧ t.result = some .executed ∧
        Stored v.2 s1 t v.1 ∧ (a ≠ .o → t.o = s.o)) ∧
    (b = .push → FaultsWith (.set a b) s .readOfWriteOnly 0x1A fun left => left.sp = s.sp ∧ left.o = s.o) ∧
    (writable a = false → readable b = true →
      FaultsWith (.set a b) s .writeOfReadOnly (encodeOperand a) fun left => left.sp = s.sp + popMoves b ∧ left.o = s.o)

/-- R92: ADD. The opcode number is R51's inference and the access order decision D2 (log entries 6 and 10). The
formula is the spec's under `Mathematical` (decision D6); that it holds under an implementation's own integers too is
the model's choice, PRESUMED in log entry 4. -/
def Obligations.AddWithCarryOut : Prop :=
  OverflowRule .add 0x2 (fun _ _ _ => True) (fun a b => (a + b) % 0x10000) (fun a b => if a + b > 0xFFFF then 1 else 0)

/-- R93: SUB. The opcode number is R51's inference and the access order decision D2 (log entries 6 and 10). The
formula is the spec's under `Mathematical` (decision D6); that it holds under an implementation's own integers too is
the model's choice, PRESUMED in log entry 4. -/
def Obligations.SubWithBorrowOut : Prop :=
  OverflowRule .sub 0x3 (fun _ _ _ => True) (fun a b => if a < b then a + 0x10000 - b else a - b)
    (fun a b => if a < b then 0xFFFF else 0)

/-- R94, under `ArithSemantics` = `Mathematical`: MUL. The opcode number is R51's inference and the access order
decision D2 (log entries 6 and 10). The unbounded integers are decision D6 (log entry 4). -/
def Obligations.MulHighWordToO : Prop :=
  OverflowRule .mul 0x4 (fun p _ _ => p.arithSemantics = .mathematical) (fun a b => a * b % 0x10000)
    (fun a b => a * b / 0x10000 % 0x10000)

/-- R95, under `ArithSemantics` = `Mathematical`, and for division by 0 under every one: DIV. The opcode number is
R51's inference and the access order decision D2 (log entries 6 and 10). The unbounded integers are decision D6 (log
entry 4). -/
def Obligations.DivFractionToO : Prop :=
  OverflowRule .div 0x5 (fun p _ b => p.arithSemantics = .mathematical ∨ b = 0) (fun a b => if b = 0 then 0 else a / b)
    (fun a b => if b = 0 then 0 else a * 0x10000 / b % 0x10000)

/-- R96: MOD. The opcode number is R51's inference and the access order decision D2 (log entries 6 and 10). The
formula is the spec's under `Mathematical` (decision D6); that it holds under an implementation's own integers too is
the model's choice, PRESUMED in log entry 4. -/
def Obligations.ModRemainder : Prop :=
  PlainRule .mod 0x6 (fun a b => if b = 0 then 0 else a % b)

/-- R97, under `ArithSemantics` = `Mathematical`: SHL by any count. The opcode number is R51's inference and the
access order decision D2 (log entries 6 and 10). The unbounded integers are decision D6 (log entry 4). -/
def Obligations.ShlShiftedOutToO : Prop :=
  OverflowRule .shl 0x7 (fun p _ _ => p.arithSemantics = .mathematical) (fun a b => a * 2 ^ b % 0x10000)
    (fun a b => a * 2 ^ b / 0x10000 % 0x10000)

/-- R98, under `ArithSemantics` = `Mathematical`: SHR by any count. The opcode number is R51's inference and the
access order decision D2 (log entries 6 and 10). The unbounded integers are decision D6 (log entry 4). -/
def Obligations.ShrShiftedOutToO : Prop :=
  OverflowRule .shr 0x8 (fun p _ _ => p.arithSemantics = .mathematical) (fun a b => a / 2 ^ b)
    (fun a b => a * 0x10000 / 2 ^ b % 0x10000)

/-- The model's choice (log entry 4): under an implementation's own integers, MUL, DIV, SHL and SHR still give the
formulas' values where a 32-bit signed integer holds every intermediate value and the shift count is below 32. -/
def Obligations.OwnArithmeticAgreesOnSmallValues : Prop :=
  OverflowRule .mul 0x4 (fun _ a b => a.toNat * b.toNat < 2 ^ 31) (fun a b => a * b % 0x10000)
    (fun a b => a * b / 0x10000 % 0x10000) ∧
  OverflowRule .div 0x5 (fun _ a _ => a.toNat < 0x8000) (fun a b => if b = 0 then 0 else a / b)
    (fun a b => if b = 0 then 0 else a * 0x10000 / b % 0x10000) ∧
  OverflowRule .shl 0x7 (fun _ a b => b.toNat < 32 ∧ a.toNat * 2 ^ b.toNat < 2 ^ 31) (fun a b => a * 2 ^ b % 0x10000)
    (fun a b => a * 2 ^ b / 0x10000 % 0x10000) ∧
  OverflowRule .shr 0x8 (fun _ a b => b.toNat < 32 ∧ a.toNat < 0x8000) (fun a b => a / 2 ^ b)
    (fun a b => a * 0x10000 / 2 ^ b % 0x10000)

/-! ### Bitwise, conditional and extended instructions -/

/-- R99: AND. The opcode number is R51's inference and the access order decision D2 (log entries 6 and 10). -/
def Obligations.AndBitwise : Prop := PlainRule .and 0x9 Nat.land

/-- R100: BOR. The opcode number is R51's inference and the access order decision D2 (log entries 6 and 10). -/
def Obligations.BorBitwise : Prop := PlainRule .bor 0xA Nat.lor

/-- R101: XOR. The opcode number is R51's inference and the access order decision D2 (log entries 6 and 10). -/
def Obligations.XorBitwise : Prop := PlainRule .xor 0xB Nat.xor

/-- R102: IFE. The opcode number is R51's inference and the access order decision D2 (log entries 6 and 10). -/
def Obligations.IfeSkipsUnlessEqual : Prop := IfRule .ife 0xC (fun a b => a = b)

/-- R103: IFN. The opcode number is R51's inference and the access order decision D2 (log entries 6 and 10). -/
def Obligations.IfnSkipsUnlessDifferent : Prop := IfRule .ifn 0xD (fun a b => a ≠ b)

/-- R104: IFG, unsigned. The opcode number is R51's inference and the access order decision D2 (log entries 6 and 10).
-/
def Obligations.IfgSkipsUnlessGreater : Prop := IfRule .ifg 0xE (fun a b => a > b)

/-- R105: IFB. The opcode number is R51's inference and the access order decision D2 (log entries 6 and 10). -/
def Obligations.IfbSkipsUnlessCommonBit : Prop := IfRule .ifb 0xF (fun a b => Nat.land a b ≠ 0)

/-- R106: JSR reads its operand, pushes PC as it stands during apply (the address of its own last Word) and jumps;
with PUSH it faults before SP moves. That the operand is read before SP moves is decision D4 (log entry 10). -/
def Obligations.JsrPushesItsLastWordAndJumps : Prop :=
  ∀ a s,
    ((encode (.jsr a)).toNat = (encodeOperand a).toNat * 0x400 + 0x10) ∧
    (readable a = true →
      ∃ v s1 t, rd (process a s).1 (process a s).2 = .ok v s1 ∧ exec (.jsr a) s = .next t ∧
        t.result = some .executed ∧ t.pc = v.1 ∧ t.sp = s1.sp - 1 ∧
        t.cell (s1.sp - 1) = s.pc + BitVec.ofNat 16 (a.nextWords) ∧ t.o = s.o) ∧
    (a = .push → FaultsWith (.jsr a) s .readOfWriteOnly 0x1A fun left => left.sp = s.sp)

/-- R107: executing "no instruction" returns `Halted` with no state change. That a halt is a next state whose `result`
says so is the model's form (log entries 9 and 11). -/
def Obligations.NoInstructionChangesNothing : Prop :=
  ∀ fa fb s, exec (.halt fa fb) s = .next { s with result := some .halted }

/-! ### Operands -/

/-- R62, R63: `process` and `no_op` of every mode: which next word is consumed, what is captured, and that nothing
else happens; `no_op` reads nothing. That `no_op` does not read is decision D8, that `process` clears a keyboard cell
R62's inference (log entry 15). -/
def Obligations.ProcessAndNoOpConsumeTheNextWord : Prop :=
  ∀ (op : Operand) (s : State),
    (process op s).1.operand = op ∧
    (process op s).2.pc = s.pc + BitVec.ofNat 16 op.nextWords ∧ (noOp op s).pc = s.pc + BitVec.ofNat 16 op.nextWords ∧
    (∀ r, op = .indNext r → (process op s).1 = .indNext r (s.cell (s.pc + 1)) (s.regs.get r)) ∧
    (op = .nextInd → (process op s).1 = .nextInd (s.cell (s.pc + 1))) ∧
    (op = .next → (process op s).1 = .next (s.cell (s.pc + 1))) ∧
    (process op s).2.regs = s.regs ∧ (process op s).2.sp = s.sp ∧ (process op s).2.o = s.o ∧
    (process op s).2.skip = s.skip ∧ (noOp op s).regs = s.regs ∧ (noOp op s).sp = s.sp ∧ (noOp op s).o = s.o ∧
    (noOp op s).skip = s.skip ∧
    (∀ x, (process op s).2.cell x = afterReading (nextWordCells op s) s x) ∧ ∀ x, (noOp op s).cell x = s.cell x

/-- R66: the register mode: the operand's four operations, for each of the eight registers. -/
def Obligations.RegisterModeReadsAndWritesTheRegister : Prop :=
  ∀ (r : Reg) (v : Word) (s : State),
    process (.reg r) s = (.reg r, s) ∧ noOp (.reg r) s = s ∧ rd (.reg r) s = .ok (s.regs.get r, .reg r) s ∧
    ∃ t, wr (.reg r) v s = .ok false t ∧ t.regs.get r = v ∧ (∀ q, q ≠ r → t.regs.get q = s.regs.get q) ∧
      t.pc = s.pc ∧ t.sp = s.sp ∧ t.o = s.o ∧ t.mem = s.mem

/-- R70: PEEK reads and writes the cell at SP, which never changes. -/
def Obligations.PeekReadsAndWritesTheTopOfStack : Prop :=
  ∀ (v : Word) (s : State),
    process .peek s = (.peek, s) ∧ noOp .peek s = s ∧
    (∃ t, rd .peek s = .ok (s.cell s.sp, .peek) t ∧ t.sp = s.sp ∧ ∀ x, t.cell x = afterReading [s.sp] s x) ∧
    ∃ t, wr .peek v s = .ok false t ∧ t.sp = s.sp ∧ t.cell s.sp = v ∧ ∀ x, x ≠ s.sp → t.cell x = s.cell x

/-- R71: PUSH is write-only: a read raises and changes nothing; a write decrements SP, modulo 2^16, and then stores
there. The wrap of SP is decision D23 too (log entry 16). -/
def Obligations.PushDecrementsThenStores : Prop :=
  ∀ (v : Word) (s : State),
    process .push s = (.push, s) ∧ noOp .push s = s ∧ rd .push s = .raise .readOfWriteOnly 0x1A s ∧
    ∃ t, wr .push v s = .ok false t ∧ t.sp.toNat = (s.sp.toNat + 0xFFFF) % 0x10000 ∧ t.cell t.sp = v ∧
      ∀ x, x ≠ t.sp → t.cell x = s.cell x

/-- R69, R78: the accesses of POP: the first goes to the cell at SP and then increments SP, modulo 2^16; a second one
of the same operand does the same again under `PerAccess` and uses the resolved address under `ResolveOnce`. The two
modes are decision D5, the wrap D23 (log entries 2 and 16). -/
def Obligations.PopAccessesThenIncrements : Prop :=
  ∀ (v : Word) (s : State), process .pop s = (.pop none, s) ∧ noOp .pop s = s ∧
    (∃ t, wr (.pop none) v s = .ok false t ∧ t.cell s.sp = v ∧ t.sp = s.sp + 1 ∧ ∀ x, x ≠ s.sp → t.cell x = s.cell x) ∧
    ∃ t, rd (.pop none) s = .ok (s.cell s.sp, .pop (some s.sp)) t ∧ t.sp = s.sp + 1 ∧
      (∀ x, t.cell x = afterReading [s.sp] s x) ∧
      ∃ u, wr (.pop (some s.sp)) v t = .ok false u ∧
        (s.params.stackRmwMode = .perAccess → u.sp = s.sp + 2 ∧ u.cell (s.sp + 1) = v ∧
          ∀ x, x ≠ s.sp + 1 → u.cell x = t.cell x) ∧
        (s.params.stackRmwMode = .resolveOnce → u.sp = s.sp + 1 ∧ u.cell s.sp = v ∧
          ∀ x, x ≠ s.sp → u.cell x = t.cell x)

/-- R67, R68, R55, R75: the three modes that address memory by a register, by a register plus next word modulo 2^16, and
by a next word: reads and writes go to that cell. -/
def Obligations.MemoryModesReachTheirCell : Prop :=
  ∀ (m : Resolved) (a v : Word) (s : State),
    ((∃ g, m = .ind g ∧ a = s.regs.get g) ∨ (m = .nextInd a) ∨
      ∃ g nw cr, m = .indNext g nw cr ∧ a.toNat = (nw.toNat + cr.toNat) % 0x10000) →
    (∃ t, rd m s = .ok (s.cell a, m) t ∧ t.sp = s.sp ∧ ∀ x, t.cell x = afterReading [a] s x) ∧
    ∃ t, wr m v s = .ok false t ∧ t.sp = s.sp ∧ t.cell a = v ∧ ∀ x, x ≠ a → t.cell x = s.cell x

/-- R76, R77: a next word and a literal: a next word is consumed by `process` and passed by `no_op`, a literal consumes
nothing; both read as their value, 0 to 31 for a literal, and raise on a write, which stores nothing. -/
def Obligations.ImmediatesAreReadOnly : Prop :=
  ∀ (nw v : Word) (l : BitVec 5) (s : State),
    ((process .next s).1 = .next (s.cell (s.pc + 1)) ∧ (process .next s).2.pc = s.pc + 1 ∧
      (noOp .next s).pc = s.pc + 1) ∧
    rd (.next nw) s = .ok (nw, .next nw) s ∧ wr (.next nw) v s = .raise .writeOfReadOnly 0x1F s ∧
    process (.lit l) s = (.lit l, s) ∧ noOp (.lit l) s = s ∧
    (∃ x : Word, rd (.lit l) s = .ok (x, .lit l) s ∧ x.toNat = (encodeOperand (.lit l)).toNat - 0x20 ∧ x.toNat ≤ 31) ∧
    wr (.lit l) v s = .raise .writeOfReadOnly (encodeOperand (.lit l)) s ∧
    0x20 ≤ (encodeOperand (.lit l)).toNat

/-- R72, R73, R74, R85: SP, PC and O as operands: whole-Word reads and writes of the register; the write of PC is the
one that counts as a jump. Decision D18 (log entry 16). -/
def Obligations.SpecialRegisterModes : Prop :=
  ∀ (v : Word) (s : State),
    rd .sp s = .ok (s.sp, .sp) s ∧ rd .pc s = .ok (s.pc, .pc) s ∧ rd .o s = .ok (s.o, .o) s ∧
    (∃ t, wr .sp v s = .ok false t ∧ t.sp = v ∧ t.pc = s.pc ∧ t.o = s.o ∧ t.regs = s.regs ∧ t.mem = s.mem) ∧
    (∃ t, wr .pc v s = .ok true t ∧ t.pc = v ∧ t.sp = s.sp ∧ t.o = s.o ∧ t.regs = s.regs ∧ t.mem = s.mem) ∧
    ∃ t, wr .o v s = .ok false t ∧ t.o = v ∧ t.sp = s.sp ∧ t.pc = s.pc ∧ t.regs = s.regs ∧ t.mem = s.mem

/-! ### Memory, reset, load and the host -/

/-- R33: the notifications of one write, in their fixed order, for an address in each region. The payloads are
decision D17 (log entry 13). -/
def Obligations.MemoryWriteNotifiesInOrder : Prop :=
  ∀ (s : State) (a v : Word),
    (0x8000 ≤ a.toNat ∧ a.toNat ≤ 0x817F → (s.memWrite a v).events =
      s.events ++ [.memWillChange a v, .videoChanged a v, .memDidChange a v]) ∧
    (0x9000 ≤ a.toNat ∧ a.toNat ≤ 0x900F → (s.memWrite a v).events =
      s.events ++ [.memWillChange a v, .keyboardChanged a v, .memDidChange a v]) ∧
    (¬(0x8000 ≤ a.toNat ∧ a.toNat ≤ 0x817F) → ¬(0x9000 ≤ a.toNat ∧ a.toNat ≤ 0x900F) → (s.memWrite a v).events =
      s.events ++ [.memWillChange a v, .memDidChange a v])

/-- R31: a read gives the Word, and clears the cell exactly in the keyboard window 0x9000-0x900F, by a write with its
notifications. Decisions D7 and D13 say which reads these are (log entries 5 and 14). -/
def Obligations.MemoryReadConsumesKeys : Prop :=
  ∀ (s : State) (a : Word),
    (s.memRead a).1 = s.cell a ∧
    (0x9000 ≤ a.toNat ∧ a.toNat ≤ 0x900F → (s.memRead a).2 = s.memWrite a 0 ∧ (s.memRead a).2.cell a = 0 ∧
      ∀ x, x ≠ a → (s.memRead a).2.cell x = s.cell x) ∧
    (¬(0x9000 ≤ a.toNat ∧ a.toNat ≤ 0x900F) → (s.memRead a).2 = s)

/-- R27, R128: after reset every register and every cell is 0, `skip` is Normal and there is no fault mark. That
`skip` and the fault mark are cleared are decisions D10 and D12 (log entry 21). -/
def Obligations.ResetLeavesZeros : Prop :=
  (∀ r, State.reset.regs.get r = 0) ∧ State.reset.pc = 0 ∧ State.reset.sp = 0 ∧ State.reset.o = 0 ∧
    State.reset.skip = false ∧ State.reset.faulted = none ∧ ∀ a, State.reset.cell a = 0

/-- R129: `load_program` of at most 65536 Words resets and places the program from address 0, with the notifications
of each Word in turn; a longer program is refused and changes nothing. The refusal is decision D15, the notifications
D16 (log entries 13 and 14). -/
def Obligations.LoadProgramResetsAndPlaces : Prop :=
  ∀ (ws : List Word) (s : State),
    (ws.length > 0x10000 → hostCall (.loadProgram ws) s = .refused .programTooLong ∧
      act (.host (.loadProgram ws)) s = s) ∧
    (ws.length ≤ 0x10000 → ∃ t, hostCall (.loadProgram ws) s = .ok none t ∧
      (∀ r, t.regs.get r = 0) ∧ t.pc = 0 ∧ t.sp = 0 ∧ t.o = 0 ∧ t.skip = false ∧ t.faulted = none ∧ t.loaded = true ∧
      (∀ a : Word, t.cell a = ws.getD a.toNat 0) ∧
      t.events = ws.zipIdx.flatMap fun p =>
        writeEvents (BitVec.ofNat 16 p.2) p.1 ++ [.valueLoaded (BitVec.ofNat 16 p.2) p.1])

/-- R130: `load_binary` of an even number of bytes loads the big-endian Words; an odd number fails and changes
nothing. -/
def Obligations.LoadBinaryIsBigEndian : Prop :=
  ∀ (bs : List Byte) (s : State),
    (bs.length % 2 = 1 → hostCall (.loadBinary bs) s = .failed ∧ act (.host (.loadBinary bs)) s = s) ∧
    (bs.length % 2 = 0 → ∃ ws : List Word, hostCall (.loadBinary bs) s = hostCall (.loadProgram ws) s ∧
      2 * ws.length = bs.length ∧
      ∀ k, k < ws.length →
        (ws.getD k 0).toNat = (bs.getD (2 * k) 0).toNat * 0x100 + (bs.getD (2 * k + 1) 0).toNat)

/-- R13, R124: a register written by the host reads back, no other register, PC, SP, O, memory or `skip` changes, and
an index outside 0 to 7 is refused and changes nothing. The refusal is decision D14 (log entry 14). -/
def Obligations.HostRegisterRoundTrip : Prop :=
  ∀ (i : Nat) (v : Word) (s : State),
    (i < 8 → ∃ t, hostCall (.writeRegister i v) s = .ok none t ∧
      (∃ u, hostCall (.readRegister i) t = .ok (some v) u ∧ u.regs = t.regs) ∧
      (∀ j, j < 8 → j ≠ i → ∃ u, hostCall (.readRegister j) t = .ok (some (s.regs.get (Reg.ofIndex j))) u) ∧
      t.pc = s.pc ∧ t.sp = s.sp ∧ t.o = s.o ∧ t.mem = s.mem ∧ t.skip = s.skip ∧ KeepsControl s t ∧
      t.events = [.regWillChange (.gp (Reg.ofIndex i)) v, .regDidChange (.gp (Reg.ofIndex i)) v]) ∧
    (8 ≤ i → hostCall (.writeRegister i v) s = .refused .registerIndexOutOfRange ∧
      hostCall (.readRegister i) s = .refused .registerIndexOutOfRange ∧ act (.host (.writeRegister i v)) s = s ∧
      act (.host (.readRegister i)) s = s)

/-- R123, R124, R31, R32: `write_memory` stores one Word; `read_memory` returns the Word and clears a keyboard cell; a
write of PC, SP or O reads back, with its two notifications; none changes `skip` or anything else. That a host read
clears is decision D13 (log entry 14). -/
def Obligations.HostPortsReachTheState : Prop :=
  ∀ (a v : Word) (s : State),
    (∃ t, hostCall (.writeMemory a v) s = .ok none t ∧ t.cell a = v ∧ (∀ x, x ≠ a → t.cell x = s.cell x) ∧
      t.regs = s.regs ∧ t.pc = s.pc ∧ t.sp = s.sp ∧ t.o = s.o ∧ t.skip = s.skip ∧ KeepsControl s t) ∧
    (∃ t, hostCall (.readMemory a) s = .ok (some (s.cell a)) t ∧ (∀ x, t.cell x = afterReading [a] s x) ∧
      t.regs = s.regs ∧ t.pc = s.pc ∧ t.sp = s.sp ∧ t.o = s.o ∧ t.skip = s.skip ∧ KeepsControl s t) ∧
    (∃ t u, hostCall (.setPC v) s = .ok none t ∧ hostCall .getPC t = .ok (some v) u ∧ t.sp = s.sp ∧ t.o = s.o ∧
      t.regs = s.regs ∧ t.mem = s.mem ∧ t.skip = s.skip ∧ KeepsControl s t ∧
      t.events = [.regWillChange .pc v, .regDidChange .pc v]) ∧
    (∃ t u, hostCall (.setSP v) s = .ok none t ∧ hostCall .getSP t = .ok (some v) u ∧ t.pc = s.pc ∧ t.o = s.o ∧
      t.regs = s.regs ∧ t.mem = s.mem ∧ t.skip = s.skip ∧ KeepsControl s t ∧
      t.events = [.regWillChange .sp v, .regDidChange .sp v]) ∧
    ∃ t u, hostCall (.setO v) s = .ok none t ∧ hostCall .getO t = .ok (some v) u ∧ t.pc = s.pc ∧ t.sp = s.sp ∧
      t.regs = s.regs ∧ t.mem = s.mem ∧ t.skip = s.skip ∧ KeepsControl s t ∧
      t.events = [.regWillChange .o v, .regDidChange .o v]

/-- R89: a run that ends normally ends with PC on a halt word, and more fuel gives the same end. The fuel is decision
D29 (log entry 20). -/
def Obligations.RunEndsAtAHaltWord : Prop :=
  ∀ n s t, runFor n s = .halted t →
    (decodeWord (t.cell t.pc)).isHalt = true ∧ t.result = some .halted ∧ ∀ k, runFor (n + k) s = .halted t
end

