-- ==== Sys2Proof/Laws/State.lean ====
section
/-! SUPPORT. One lemma per field per update of the state, and of the state a read leaves. -/

namespace Sys2Proof.Machine

section

variable (s : State) (r : Reg) (v : Word)

@[simp] theorem State.setReg_regs : (s.setReg r v).regs = s.regs.set r v := rfl
@[simp] theorem State.setReg_pc : (s.setReg r v).pc = s.pc := rfl
@[simp] theorem State.setReg_sp : (s.setReg r v).sp = s.sp := rfl
@[simp] theorem State.setReg_o : (s.setReg r v).o = s.o := rfl
@[simp] theorem State.setReg_skip : (s.setReg r v).skip = s.skip := rfl
@[simp] theorem State.setReg_mem : (s.setReg r v).mem = s.mem := rfl
@[simp] theorem State.setReg_loaded : (s.setReg r v).loaded = s.loaded := rfl
@[simp] theorem State.setReg_faulted : (s.setReg r v).faulted = s.faulted := rfl
@[simp] theorem State.setReg_params : (s.setReg r v).params = s.params := rfl
@[simp] theorem State.setReg_result : (s.setReg r v).result = s.result := rfl
@[simp] theorem State.setReg_events : (s.setReg r v).events = s.events ++ regEvents (.gp r) v := rfl

end

section

variable (s : State) (v : Word)

@[simp] theorem State.setPc_regs : (s.setPc v).regs = s.regs := rfl
@[simp] theorem State.setPc_pc : (s.setPc v).pc = v := rfl
@[simp] theorem State.setPc_sp : (s.setPc v).sp = s.sp := rfl
@[simp] theorem State.setPc_o : (s.setPc v).o = s.o := rfl
@[simp] theorem State.setPc_skip : (s.setPc v).skip = s.skip := rfl
@[simp] theorem State.setPc_mem : (s.setPc v).mem = s.mem := rfl
@[simp] theorem State.setPc_loaded : (s.setPc v).loaded = s.loaded := rfl
@[simp] theorem State.setPc_faulted : (s.setPc v).faulted = s.faulted := rfl
@[simp] theorem State.setPc_params : (s.setPc v).params = s.params := rfl
@[simp] theorem State.setPc_result : (s.setPc v).result = s.result := rfl
@[simp] theorem State.setPc_events : (s.setPc v).events = s.events ++ regEvents .pc v := rfl

end

section

variable (s : State) (v : Word)

@[simp] theorem State.setSp_regs : (s.setSp v).regs = s.regs := rfl
@[simp] theorem State.setSp_pc : (s.setSp v).pc = s.pc := rfl
@[simp] theorem State.setSp_sp : (s.setSp v).sp = v := rfl
@[simp] theorem State.setSp_o : (s.setSp v).o = s.o := rfl
@[simp] theorem State.setSp_skip : (s.setSp v).skip = s.skip := rfl
@[simp] theorem State.setSp_mem : (s.setSp v).mem = s.mem := rfl
@[simp] theorem State.setSp_loaded : (s.setSp v).loaded = s.loaded := rfl
@[simp] theorem State.setSp_faulted : (s.setSp v).faulted = s.faulted := rfl
@[simp] theorem State.setSp_params : (s.setSp v).params = s.params := rfl
@[simp] theorem State.setSp_result : (s.setSp v).result = s.result := rfl
@[simp] theorem State.setSp_events : (s.setSp v).events = s.events ++ regEvents .sp v := rfl

end

section

variable (s : State) (v : Word)

@[simp] theorem State.setO_regs : (s.setO v).regs = s.regs := rfl
@[simp] theorem State.setO_pc : (s.setO v).pc = s.pc := rfl
@[simp] theorem State.setO_sp : (s.setO v).sp = s.sp := rfl
@[simp] theorem State.setO_o : (s.setO v).o = v := rfl
@[simp] theorem State.setO_skip : (s.setO v).skip = s.skip := rfl
@[simp] theorem State.setO_mem : (s.setO v).mem = s.mem := rfl
@[simp] theorem State.setO_loaded : (s.setO v).loaded = s.loaded := rfl
@[simp] theorem State.setO_faulted : (s.setO v).faulted = s.faulted := rfl
@[simp] theorem State.setO_params : (s.setO v).params = s.params := rfl
@[simp] theorem State.setO_result : (s.setO v).result = s.result := rfl
@[simp] theorem State.setO_events : (s.setO v).events = s.events ++ regEvents .o v := rfl

end

section

variable (s : State)

@[simp] theorem State.incPc_regs : (s.incPc).regs = s.regs := rfl
@[simp] theorem State.incPc_pc : (s.incPc).pc = s.pc + 1 := rfl
@[simp] theorem State.incPc_sp : (s.incPc).sp = s.sp := rfl
@[simp] theorem State.incPc_o : (s.incPc).o = s.o := rfl
@[simp] theorem State.incPc_skip : (s.incPc).skip = s.skip := rfl
@[simp] theorem State.incPc_mem : (s.incPc).mem = s.mem := rfl
@[simp] theorem State.incPc_loaded : (s.incPc).loaded = s.loaded := rfl
@[simp] theorem State.incPc_faulted : (s.incPc).faulted = s.faulted := rfl
@[simp] theorem State.incPc_params : (s.incPc).params = s.params := rfl
@[simp] theorem State.incPc_result : (s.incPc).result = s.result := rfl
@[simp] theorem State.incPc_events : (s.incPc).events = s.events ++ regEvents .pc (s.pc + 1) := rfl

end

section

variable (s : State) (v : Bool)

@[simp] theorem State.setSkip_regs : (s.setSkip v).regs = s.regs := rfl
@[simp] theorem State.setSkip_pc : (s.setSkip v).pc = s.pc := rfl
@[simp] theorem State.setSkip_sp : (s.setSkip v).sp = s.sp := rfl
@[simp] theorem State.setSkip_o : (s.setSkip v).o = s.o := rfl
@[simp] theorem State.setSkip_skip : (s.setSkip v).skip = v := rfl
@[simp] theorem State.setSkip_mem : (s.setSkip v).mem = s.mem := rfl
@[simp] theorem State.setSkip_loaded : (s.setSkip v).loaded = s.loaded := rfl
@[simp] theorem State.setSkip_faulted : (s.setSkip v).faulted = s.faulted := rfl
@[simp] theorem State.setSkip_params : (s.setSkip v).params = s.params := rfl
@[simp] theorem State.setSkip_result : (s.setSkip v).result = s.result := rfl
@[simp] theorem State.setSkip_events : (s.setSkip v).events = s.events := rfl

end

section

variable (s : State) (a v : Word)

@[simp] theorem State.memWrite_regs : (s.memWrite a v).regs = s.regs := rfl
@[simp] theorem State.memWrite_pc : (s.memWrite a v).pc = s.pc := rfl
@[simp] theorem State.memWrite_sp : (s.memWrite a v).sp = s.sp := rfl
@[simp] theorem State.memWrite_o : (s.memWrite a v).o = s.o := rfl
@[simp] theorem State.memWrite_skip : (s.memWrite a v).skip = s.skip := rfl
@[simp] theorem State.memWrite_mem : (s.memWrite a v).mem = s.mem.write a.toNat v := rfl
@[simp] theorem State.memWrite_loaded : (s.memWrite a v).loaded = s.loaded := rfl
@[simp] theorem State.memWrite_faulted : (s.memWrite a v).faulted = s.faulted := rfl
@[simp] theorem State.memWrite_params : (s.memWrite a v).params = s.params := rfl
@[simp] theorem State.memWrite_result : (s.memWrite a v).result = s.result := rfl
@[simp] theorem State.memWrite_events : (s.memWrite a v).events = s.events ++ writeEvents a v := rfl

end

section

variable (s : State)

@[simp] theorem State.beginCall_regs : (s.beginCall).regs = s.regs := rfl
@[simp] theorem State.beginCall_pc : (s.beginCall).pc = s.pc := rfl
@[simp] theorem State.beginCall_sp : (s.beginCall).sp = s.sp := rfl
@[simp] theorem State.beginCall_o : (s.beginCall).o = s.o := rfl
@[simp] theorem State.beginCall_skip : (s.beginCall).skip = s.skip := rfl
@[simp] theorem State.beginCall_mem : (s.beginCall).mem = s.mem := rfl
@[simp] theorem State.beginCall_loaded : (s.beginCall).loaded = s.loaded := rfl
@[simp] theorem State.beginCall_faulted : (s.beginCall).faulted = s.faulted := rfl
@[simp] theorem State.beginCall_params : (s.beginCall).params = s.params := rfl
@[simp] theorem State.beginCall_result : (s.beginCall).result = none := rfl
@[simp] theorem State.beginCall_events : (s.beginCall).events = [] := rfl

end

section

variable (s : State) (r : StepResult)

@[simp] theorem State.returning_regs : (s.returning r).regs = s.regs := rfl
@[simp] theorem State.returning_pc : (s.returning r).pc = s.pc := rfl
@[simp] theorem State.returning_sp : (s.returning r).sp = s.sp := rfl
@[simp] theorem State.returning_o : (s.returning r).o = s.o := rfl
@[simp] theorem State.returning_skip : (s.returning r).skip = s.skip := rfl
@[simp] theorem State.returning_mem : (s.returning r).mem = s.mem := rfl
@[simp] theorem State.returning_loaded : (s.returning r).loaded = s.loaded := rfl
@[simp] theorem State.returning_faulted : (s.returning r).faulted = s.faulted := rfl
@[simp] theorem State.returning_params : (s.returning r).params = s.params := rfl
@[simp] theorem State.returning_result : (s.returning r).result = some r := rfl
@[simp] theorem State.returning_events : (s.returning r).events = s.events := rfl

end

section

variable (s : State)

@[simp] theorem State.doReset_regs : (s.doReset).regs = State.reset.regs := rfl
@[simp] theorem State.doReset_pc : (s.doReset).pc = 0 := rfl
@[simp] theorem State.doReset_sp : (s.doReset).sp = 0 := rfl
@[simp] theorem State.doReset_o : (s.doReset).o = 0 := rfl
@[simp] theorem State.doReset_skip : (s.doReset).skip = false := rfl
@[simp] theorem State.doReset_mem : (s.doReset).mem = [] := rfl
@[simp] theorem State.doReset_loaded : (s.doReset).loaded = s.loaded := rfl
@[simp] theorem State.doReset_faulted : (s.doReset).faulted = none := rfl
@[simp] theorem State.doReset_params : (s.doReset).params = s.params := rfl
@[simp] theorem State.doReset_result : (s.doReset).result = s.result := rfl
@[simp] theorem State.doReset_events : (s.doReset).events = s.events := rfl

end

section

variable (s : State) (a : Word)

@[simp] theorem State.afterRead_regs : (s.afterRead a).regs = s.regs := by
  unfold State.afterRead; split <;> rfl
@[simp] theorem State.afterRead_pc : (s.afterRead a).pc = s.pc := by
  unfold State.afterRead; split <;> rfl
@[simp] theorem State.afterRead_sp : (s.afterRead a).sp = s.sp := by
  unfold State.afterRead; split <;> rfl
@[simp] theorem State.afterRead_o : (s.afterRead a).o = s.o := by
  unfold State.afterRead; split <;> rfl
@[simp] theorem State.afterRead_skip : (s.afterRead a).skip = s.skip := by
  unfold State.afterRead; split <;> rfl
@[simp] theorem State.afterRead_loaded : (s.afterRead a).loaded = s.loaded := by
  unfold State.afterRead; split <;> rfl
@[simp] theorem State.afterRead_faulted : (s.afterRead a).faulted = s.faulted := by
  unfold State.afterRead; split <;> rfl
@[simp] theorem State.afterRead_params : (s.afterRead a).params = s.params := by
  unfold State.afterRead; split <;> rfl
@[simp] theorem State.afterRead_result : (s.afterRead a).result = s.result := by
  unfold State.afterRead; split <;> rfl

/-- R31: a read clears a keyboard cell. -/
theorem State.afterRead_mem :
    (s.afterRead a).mem = if regionOf a = .keyboard then s.mem.write a.toNat 0 else s.mem := by
  unfold State.afterRead; split <;> simp_all

/-- R31: outside the keyboard window a read has no side effect. -/
theorem State.afterRead_plain (h : regionOf a ≠ .keyboard) : s.afterRead a = s := by
  unfold State.afterRead; split <;> simp_all

end

@[simp] theorem State.memRead_fst (s : State) (a : Word) : (s.memRead a).1 = s.cell a := rfl
@[simp] theorem State.memRead_snd (s : State) (a : Word) : (s.memRead a).2 = s.afterRead a := rfl

/-! ### Registers -/

/-- R13: write then read of one register. -/
@[simp] theorem Regs.get_set_same (g : Regs) (r : Reg) (v : Word) : (g.set r v).get r = v := by
  cases r <;> rfl

/-- A register write changes no other register. -/
theorem Regs.get_set_other (g : Regs) {r q : Reg} (v : Word) (h : q ≠ r) : (g.set r v).get q = g.get q := by
  cases r <;> cases q <;> first | rfl | exact absurd rfl h

/-! ### Sequencing -/

@[simp] theorem Access.bind_ok {α β : Type} (v : α) (s : State) (f : α → State → Access β) :
    (Access.ok v s).bind f = f v s := rfl

@[simp] theorem Access.bind_raise {α β : Type} (k : FaultKind) (c : Code) (s : State) (f : α → State → Access β) :
    (Access.raise k c s).bind f = .raise k c s := rfl

/-- A sequence that goes on went on in both parts. -/
theorem Access.bind_eq_ok {α β : Type} {m : Access α} {f : α → State → Access β} {v : β} {s : State} :
    m.bind f = .ok v s ↔ ∃ u t, m = .ok u t ∧ f u t = .ok v s := by
  cases m <;> simp

/-- A sequence raises in its first part or, after it, in its second. -/
theorem Access.bind_eq_raise {α β : Type} {m : Access α} {f : α → State → Access β} {k : FaultKind} {c : Code}
    {s : State} : m.bind f = .raise k c s ↔ m = .raise k c s ∨ ∃ u t, m = .ok u t ∧ f u t = .raise k c s := by
  cases m <;> simp

end Sys2Proof.Machine
end

