-- ==== Sys2Proof/Laws/Memory.lean ====
section
/-! SUPPORT. Memory: read after write, and that every operation keeps the canonical form. -/

namespace Sys2Proof.Machine

/-! ### Read after write, for every list -/

theorem Mem.read_erase_same (m : Mem) (a : Nat) : (m.erase a).read a = 0 := by
  induction m with
  | nil => rfl
  | cons c m ih =>
    obtain ⟨k, w⟩ := c
    by_cases h : k = a <;> simp [Mem.erase, Mem.read, h, ih]

theorem Mem.read_erase_other (m : Mem) {a b : Nat} (h : b ≠ a) : (m.erase a).read b = m.read b := by
  induction m with
  | nil => rfl
  | cons c m ih =>
    obtain ⟨k, w⟩ := c
    by_cases hk : k = a
    · subst hk; simp [Mem.erase, Mem.read, ih, Ne.symm h]
    · simp [Mem.erase, Mem.read, hk, ih]

theorem Mem.read_insert_same (m : Mem) (a : Nat) (v : Word) : ((m.erase a).insert a v).read a = v := by
  induction m with
  | nil => simp [Mem.erase, Mem.insert, Mem.read]
  | cons c m ih =>
    obtain ⟨k, w⟩ := c
    by_cases hk : k = a
    · simpa [Mem.erase, hk] using ih
    · by_cases hl : a < k <;> simp [Mem.erase, Mem.insert, Mem.read, hk, hl, ih]

theorem Mem.read_insert_other (m : Mem) {a b : Nat} (v : Word) (h : b ≠ a) : (m.insert a v).read b = m.read b := by
  induction m with
  | nil => simp [Mem.insert, Mem.read, Ne.symm h]
  | cons c m ih =>
    obtain ⟨k, w⟩ := c
    by_cases hl : a < k
    · simp [Mem.insert, Mem.read, hl, Ne.symm h]
    · simp [Mem.insert, Mem.read, hl, ih]

/-- A write, then a read of the same cell. -/
@[simp] theorem Mem.read_write_same (m : Mem) (a : Nat) (v : Word) : (m.write a v).read a = v := by
  unfold Mem.write
  split
  · next h => rw [Mem.read_erase_same, h]
  · exact Mem.read_insert_same m a v

/-- A write leaves every other cell alone. -/
theorem Mem.read_write_other (m : Mem) {a b : Nat} (v : Word) (h : b ≠ a) : (m.write a v).read b = m.read b := by
  unfold Mem.write
  split
  · exact Mem.read_erase_other m h
  · rw [Mem.read_insert_other _ v h, Mem.read_erase_other m h]

/-! ### The canonical form -/

theorem Mem.wfFrom_cons {lo k : Nat} {w : Word} {m : Mem} :
    Mem.wfFrom lo ((k, w) :: m) = true ↔ lo ≤ k ∧ k < 0x10000 ∧ w ≠ 0 ∧ Mem.wfFrom (k + 1) m = true := by
  simp [Mem.wfFrom, and_assoc]

theorem Mem.wfFrom_mono {m : Mem} {lo lo' : Nat} (h : lo' ≤ lo) (hm : Mem.wfFrom lo m = true) :
    Mem.wfFrom lo' m = true := by
  cases m with
  | nil => rfl
  | cons c m =>
    obtain ⟨k, w⟩ := c
    rw [Mem.wfFrom_cons] at hm ⊢
    exact ⟨h.trans hm.1, hm.2⟩

/-- A cell below the start of a canonical list is not listed. -/
theorem Mem.erase_below {m : Mem} {lo a : Nat} (h : a < lo) (hm : Mem.wfFrom lo m = true) : m.erase a = m := by
  induction m generalizing lo with
  | nil => rfl
  | cons c m ih =>
    obtain ⟨k, w⟩ := c
    rw [Mem.wfFrom_cons] at hm
    have hk : k ≠ a := by omega
    simp [Mem.erase, hk, ih (by omega) hm.2.2.2]

theorem Mem.wfFrom_erase {m : Mem} {lo : Nat} (a : Nat) (hm : Mem.wfFrom lo m = true) :
    Mem.wfFrom lo (m.erase a) = true := by
  induction m generalizing lo with
  | nil => rfl
  | cons c m ih =>
    obtain ⟨k, w⟩ := c
    rw [Mem.wfFrom_cons] at hm
    by_cases hk : k = a
    · simpa [Mem.erase, hk] using Mem.wfFrom_mono (by omega) (ih hm.2.2.2)
    · simpa [Mem.erase, hk, Mem.wfFrom_cons] using ⟨hm.1, hm.2.1, hm.2.2.1, ih hm.2.2.2⟩

/-- Inserting a cell that is not listed keeps the form. -/
theorem Mem.wfFrom_insert {m : Mem} {lo a : Nat} {v : Word} (hlo : lo ≤ a) (ha : a < 0x10000) (hv : v ≠ 0)
    (hm : Mem.wfFrom lo (m.erase a) = true) : Mem.wfFrom lo ((m.erase a).insert a v) = true := by
  induction m generalizing lo with
  | nil => simpa [Mem.erase, Mem.insert, Mem.wfFrom] using ⟨⟨hlo, ha⟩, hv⟩
  | cons c m ih =>
    obtain ⟨k, w⟩ := c
    by_cases hk : k = a
    · simp only [Mem.erase, hk, if_true] at hm ⊢
      exact ih hlo hm
    · simp only [Mem.erase, hk, if_false, Mem.wfFrom_cons] at hm
      by_cases hl : a < k
      · simp only [Mem.erase, hk, Mem.insert, hl, if_true, if_false, Mem.wfFrom_cons]
        exact ⟨hlo, ha, hv, by omega, hm.2⟩
      · simp only [Mem.erase, hk, Mem.insert, hl, if_false, Mem.wfFrom_cons]
        exact ⟨hm.1, hm.2.1, hm.2.2.1, ih (by omega) hm.2.2.2⟩

/-- Every write inside the address space keeps the canonical form. -/
theorem Mem.wf_write {m : Mem} {a : Nat} (v : Word) (ha : a < 0x10000) (hm : m.wf = true) : (m.write a v).wf = true := by
  unfold Mem.write Mem.wf at *
  split
  · exact Mem.wfFrom_erase a hm
  · next hv => exact Mem.wfFrom_insert (Nat.zero_le a) ha hv (Mem.wfFrom_erase a hm)

/-! ### The machine's accesses -/

/-- R32: what a write does to every cell. -/
theorem State.cell_memWrite (s : State) (a v b : Word) :
    (s.memWrite a v).cell b = if b = a then v else s.cell b := by
  unfold State.cell
  split
  · next h => subst h; simp
  · next h => simpa using Mem.read_write_other s.mem v (fun e => h (BitVec.eq_of_toNat_eq e))

@[simp] theorem State.cell_memWrite_same (s : State) (a v : Word) : (s.memWrite a v).cell a = v := by
  simp [State.cell_memWrite]

/-- R31: what a read does to every cell. -/
theorem State.cell_afterRead (s : State) (a b : Word) :
    (s.afterRead a).cell b = if b = a ∧ regionOf b = .keyboard then 0 else s.cell b := by
  by_cases h : regionOf a = .keyboard
  · have e : s.afterRead a = s.memWrite a 0 := by unfold State.afterRead; simp [h]
    rw [e, State.cell_memWrite]
    by_cases hb : b = a <;> simp [hb, h]
  · rw [State.afterRead_plain s a h]
    by_cases hb : b = a <;> simp [hb, h]

section

variable (s : State)

@[simp] theorem State.cell_setReg (r : Reg) (v a : Word) : (s.setReg r v).cell a = s.cell a := rfl
@[simp] theorem State.cell_setPc (v a : Word) : (s.setPc v).cell a = s.cell a := rfl
@[simp] theorem State.cell_setSp (v a : Word) : (s.setSp v).cell a = s.cell a := rfl
@[simp] theorem State.cell_setO (v a : Word) : (s.setO v).cell a = s.cell a := rfl
@[simp] theorem State.cell_incPc (a : Word) : s.incPc.cell a = s.cell a := rfl
@[simp] theorem State.cell_setSkip (v : Bool) (a : Word) : (s.setSkip v).cell a = s.cell a := rfl
@[simp] theorem State.cell_beginCall (a : Word) : s.beginCall.cell a = s.cell a := rfl
@[simp] theorem State.cell_returning (r : StepResult) (a : Word) : (s.returning r).cell a = s.cell a := rfl

end

/-- R32: a write keeps the canonical form, at every address. -/
theorem State.memWrite_wf {s : State} (a v : Word) (h : s.mem.wf = true) : (s.memWrite a v).mem.wf = true :=
  Mem.wf_write v a.isLt h

/-- R31: a read keeps the canonical form. -/
theorem State.afterRead_wf {s : State} (a : Word) (h : s.mem.wf = true) : (s.afterRead a).mem.wf = true := by
  unfold State.afterRead; split
  · exact State.memWrite_wf a 0 h
  · exact h
  · exact h

/-- R81: the fetch keeps the canonical form. -/
theorem fetch_wf {s : State} (h : s.mem.wf = true) : (fetch s).2.mem.wf = true := by
  unfold fetch; split
  · exact State.afterRead_wf _ h
  · exact h

/-- Placing a program keeps the canonical form. -/
theorem Mem.place_wf {m : Mem} (a : Word) (ws : List Word) (h : m.wf = true) : (m.place a ws).wf = true := by
  induction ws generalizing m a with
  | nil => exact h
  | cons w ws ih => exact ih _ (Mem.wf_write w a.isLt h)

/-- R129: loading Words keeps the canonical form. -/
theorem loadWords_wf {s : State} (a : Word) (ws : List Word) (h : s.mem.wf = true) :
    (loadWords s a ws).mem.wf = true := by
  induction ws generalizing s a with
  | nil => exact h
  | cons w ws ih => exact ih _ (State.memWrite_wf a w h)

end Sys2Proof.Machine
end

