-- ==== Sys2Proof/Laws/Operands.lean ====
section
/-! SUPPORT. What each operation on an operand can do, said once: `process`, `noOp`, `rd`, `wr` and the reads of an
instruction. -/

namespace Sys2Proof.Machine

/-! ### What no part of an instruction but a write touches -/

/-- `t` differs from `s` at most in PC, SP, memory and notifications. -/
structure Quiet (s t : State) : Prop where
  regs : t.regs = s.regs
  o : t.o = s.o
  skip : t.skip = s.skip
  loaded : t.loaded = s.loaded
  faulted : t.faulted = s.faulted
  params : t.params = s.params
  result : t.result = s.result

theorem Quiet.refl (s : State) : Quiet s s := ⟨rfl, rfl, rfl, rfl, rfl, rfl, rfl⟩

theorem Quiet.trans {s t u : State} (h : Quiet s t) (k : Quiet t u) : Quiet s u :=
  ⟨k.regs.trans h.regs, k.o.trans h.o, k.skip.trans h.skip, k.loaded.trans h.loaded, k.faulted.trans h.faulted,
    k.params.trans h.params, k.result.trans h.result⟩

theorem Quiet.memWrite (s : State) (a v : Word) : Quiet s (s.memWrite a v) := ⟨rfl, rfl, rfl, rfl, rfl, rfl, rfl⟩

theorem Quiet.afterRead (s : State) (a : Word) : Quiet s (s.afterRead a) := by constructor <;> simp

theorem Quiet.incPc (s : State) : Quiet s s.incPc := ⟨rfl, rfl, rfl, rfl, rfl, rfl, rfl⟩

theorem Quiet.setSp (s : State) (v : Word) : Quiet s (s.setSp v) := ⟨rfl, rfl, rfl, rfl, rfl, rfl, rfl⟩

theorem Quiet.setPc (s : State) (v : Word) : Quiet s (s.setPc v) := ⟨rfl, rfl, rfl, rfl, rfl, rfl, rfl⟩

theorem Quiet.popMove (sa : Option Word) (s : State) : Quiet s (popMove sa s) := by
  unfold Machine.popMove
  split
  · exact Quiet.setSp s _
  · split
    · exact Quiet.setSp s _
    · exact Quiet.refl s

/-! ### process and no_op (R62, R63) -/

/-- R62: consuming a next word. -/
theorem consumeNext_eq (s : State) : consumeNext s = (s.cell (s.pc + 1), s.incPc.afterRead (s.pc + 1)) := rfl

/-- R62: `process` consumes the next word if there is one, and does nothing else. -/
theorem process_state (op : Operand) (s : State) :
    (process op s).2 = if op.nextWords = 1 then s.incPc.afterRead (s.pc + 1) else s := by
  cases op <;> rfl

/-- R63: `no_op` passes the next word if there is one, and does nothing else. -/
theorem noOp_state (op : Operand) (s : State) : noOp op s = if op.nextWords = 1 then s.incPc else s := by
  cases op <;> rfl

theorem Operand.nextWords_le (op : Operand) : op.nextWords = 0 ∨ op.nextWords = 1 := by cases op <;> simp [Operand.nextWords]

theorem process_quiet (op : Operand) (s : State) : Quiet s (process op s).2 := by
  rw [process_state]; split
  · exact (Quiet.incPc s).trans (Quiet.afterRead _ _)
  · exact Quiet.refl s

theorem noOp_quiet (op : Operand) (s : State) : Quiet s (noOp op s) := by
  rw [noOp_state]; split
  · exact Quiet.incPc s
  · exact Quiet.refl s

@[simp] theorem process_pc (op : Operand) (s : State) : (process op s).2.pc = s.pc + BitVec.ofNat 16 op.nextWords := by
  rw [process_state]; rcases Operand.nextWords_le op with h | h <;> simp [h]

@[simp] theorem noOp_pc (op : Operand) (s : State) : (noOp op s).pc = s.pc + BitVec.ofNat 16 op.nextWords := by
  rw [noOp_state]; rcases Operand.nextWords_le op with h | h <;> simp [h]

@[simp] theorem process_sp (op : Operand) (s : State) : (process op s).2.sp = s.sp := by
  rw [process_state]; split <;> simp

@[simp] theorem noOp_sp (op : Operand) (s : State) : (noOp op s).sp = s.sp := by
  rw [noOp_state]; split <;> simp

@[simp] theorem noOp_mem (op : Operand) (s : State) : (noOp op s).mem = s.mem := by
  rw [noOp_state]; split <;> simp

/-- R62: the cells `process` leaves: that of the next word is cleared if it is a key. -/
theorem process_cell (op : Operand) (s : State) (x : Word) :
    (process op s).2.cell x =
      if op.nextWords = 1 ∧ x = s.pc + 1 ∧ regionOf x = .keyboard then 0 else s.cell x := by
  rw [process_state]
  by_cases h : op.nextWords = 1
  · simp [h, State.cell_afterRead]
  · simp [h]

theorem process_wf {op : Operand} {s : State} (h : s.mem.wf = true) : (process op s).2.mem.wf = true := by
  rw [process_state]; split
  · exact State.afterRead_wf _ h
  · exact h

/-- R61: the processed operand is of the operand's mode. -/
@[simp] theorem process_operand (op : Operand) (s : State) : (process op s).1.operand = op := by cases op <;> rfl

/-! ### rd (R64) -/

/-- The state that a `rd` leaves: the cell it reads is read, and POP moves SP. -/
def rdState (r : Resolved) (s : State) : State :=
  match r with
  | .pop sa => popMove sa (s.afterRead (popAddr sa s))
  | .ind _ | .indNext _ _ _ | .peek | .nextInd _ => s.afterRead ((r.readAddr s).getD 0)
  | .reg _ | .sp | .pc | .o | .next _ | .lit _ | .push => s

/-- The value that a `rd` gives. -/
def rdValue (r : Resolved) (s : State) : Word :=
  match r with
  | .reg g => s.regs.get g
  | .sp => s.sp
  | .pc => s.pc
  | .o => s.o
  | .next nw => nw
  | .lit c => c.setWidth 16
  | .ind _ | .indNext _ _ _ | .pop _ | .peek | .nextInd _ | .push => s.cell ((r.readAddr s).getD 0)

/-- The operand that a `rd` gives back: POP has its address resolved, every other mode is as before. -/
def rdDst (r : Resolved) (s : State) : Resolved :=
  match r with
  | .pop sa => .pop (some (popAddr sa s))
  | .reg _ | .ind _ | .indNext _ _ _ | .peek | .push | .sp | .pc | .o | .nextInd _ | .next _ | .lit _ => r

theorem rd_state {r : Resolved} {s t : State} {v : Word × Resolved} (h : rd r s = .ok v t) : t = rdState r s := by
  cases r <;> simp only [rd, readCell, popRead, Access.ok.injEq, reduceCtorEq] at h <;>
    (obtain ⟨-, rfl⟩ := h; rfl)

theorem rd_value {r : Resolved} {s t : State} {v : Word × Resolved} (h : rd r s = .ok v t) : v.1 = rdValue r s := by
  cases r <;> simp only [rd, readCell, popRead, Access.ok.injEq, reduceCtorEq] at h <;>
    (obtain ⟨rfl, -⟩ := h; simp [rdValue, Resolved.readAddr])

theorem rd_dst {r : Resolved} {s t : State} {v : Word × Resolved} (h : rd r s = .ok v t) : v.2 = rdDst r s := by
  cases r <;> simp only [rd, readCell, popRead, Access.ok.injEq, reduceCtorEq] at h <;>
    (obtain ⟨rfl, -⟩ := h; rfl)

/-- R64: a `rd` that goes on, in full. -/
theorem rd_eq_ok {r : Resolved} {s t : State} {v : Word × Resolved} :
    rd r s = .ok v t ↔ readable r.operand = true ∧ v = (rdValue r s, rdDst r s) ∧ t = rdState r s := by
  constructor
  · intro h
    refine ⟨?_, Prod.ext (rd_value h) (rd_dst h), rd_state h⟩
    cases r <;> simp_all [readable, Resolved.operand, rd]
  · rintro ⟨h, rfl, rfl⟩
    cases r <;> first | rfl | cases h

theorem rd_dst_operand {r : Resolved} {s t : State} {v : Word × Resolved} (h : rd r s = .ok v t) :
    v.2.operand = r.operand := by
  rw [rd_dst h]; cases r <;> rfl

theorem rd_quiet {r : Resolved} {s t : State} {v : Word × Resolved} (h : rd r s = .ok v t) : Quiet s t := by
  rw [rd_state h]
  cases r <;> first
    | exact Quiet.refl s
    | exact Quiet.afterRead _ _
    | exact (Quiet.afterRead _ _).trans (Quiet.popMove _ _)

@[simp] theorem popMove_pc (sa : Option Word) (s : State) : (popMove sa s).pc = s.pc := by
  unfold popMove; repeat' split
  all_goals rfl

@[simp] theorem popMove_mem (sa : Option Word) (s : State) : (popMove sa s).mem = s.mem := by
  unfold popMove; repeat' split
  all_goals rfl

@[simp] theorem popMove_cell (sa : Option Word) (s : State) (x : Word) : (popMove sa s).cell x = s.cell x := by
  simp [State.cell]

theorem rd_pc {r : Resolved} {s t : State} {v : Word × Resolved} (h : rd r s = .ok v t) : t.pc = s.pc := by
  rw [rd_state h]; cases r <;> simp [rdState]

theorem rd_wf {r : Resolved} {s t : State} {v : Word × Resolved} (h : rd r s = .ok v t) (hs : s.mem.wf = true) :
    t.mem.wf = true := by
  rw [rd_state h]; cases r <;> simp [rdState] <;> first | exact hs | exact State.afterRead_wf _ hs

/-- R31: the cells a read leaves: that of a key that was read is cleared. -/
theorem rd_cell {r : Resolved} {s t : State} {v : Word × Resolved} (h : rd r s = .ok v t) (x : Word) :
    t.cell x = if r.readAddr s = some x ∧ regionOf x = .keyboard then 0 else s.cell x := by
  rw [rd_state h]
  cases r <;> simp [rdState, Resolved.readAddr, State.cell_afterRead, eq_comm]

/-- R69: SP after a `rd`. -/
def rdSp (r : Resolved) (s : State) : Word :=
  match r with
  | .pop sa => (popMove sa s).sp
  | .reg _ | .ind _ | .indNext _ _ _ | .peek | .push | .sp | .pc | .o | .nextInd _ | .next _ | .lit _ => s.sp

theorem rd_sp {r : Resolved} {s t : State} {v : Word × Resolved} (h : rd r s = .ok v t) : t.sp = rdSp r s := by
  rw [rd_state h]
  cases r <;> simp only [rdState, rdSp, State.afterRead_sp]
  simp only [popMove, State.afterRead_params, State.afterRead_sp]
  repeat' split
  all_goals simp

/-- R69: only POP moves SP when it is read. -/
theorem rd_sp_of_ne_pop {r : Resolved} {s t : State} {v : Word × Resolved} (h : rd r s = .ok v t)
    (hr : r.operand ≠ .pop) : t.sp = s.sp := by
  rw [rd_sp h]; cases r <;> first | rfl | exact absurd rfl hr

/-- R69: the first access of a POP operand moves SP by one. -/
theorem rd_sp_pop {s t : State} {v : Word × Resolved} (h : rd (.pop none) s = .ok v t) : t.sp = s.sp + 1 := by
  rw [rd_sp h, rdSp, popMove]; cases s.params.stackRmwMode <;> rfl

/-- R64: PUSH alone cannot be read. -/
theorem rd_ok_of_readable (r : Resolved) (s : State) (h : readable r.operand = true) : ∃ v t, rd r s = .ok v t := by
  cases r <;> simp_all [readable, Resolved.operand, rd, readCell, popRead]

theorem rd_readable {r : Resolved} {s t : State} {v : Word × Resolved} (h : rd r s = .ok v t) :
    readable r.operand = true := by
  cases r <;> simp_all [readable, Resolved.operand, rd]

/-- R64: the read of PUSH raises and changes nothing. -/
theorem rd_push (s : State) : rd .push s = .raise .readOfWriteOnly 0x1A s := rfl

theorem Resolved.eq_push {r : Resolved} (h : r.operand = .push) : r = .push := by cases r <;> simp_all [Resolved.operand]

/-- R64: whatever `rd` raises is the fault of PUSH, in the unchanged state. -/
theorem rd_raise {r : Resolved} {s t : State} {k : FaultKind} {c : Code} (h : rd r s = .raise k c t) :
    r = .push ∧ k = .readOfWriteOnly ∧ c = 0x1A ∧ t = s := by
  cases r <;> simp_all [rd, readCell, popRead, encodeOperand]

/-! ### wr (R65) -/

/-- R65: the modes that can be written. -/
theorem wr_ok_of_writable (r : Resolved) (v : Word) (s : State) (h : writable r.operand = true) :
    ∃ t, wr r v s = .ok (r.operand == .pc) t := by
  cases r <;> simp_all [writable, Resolved.operand, wr]

theorem wr_writable {r : Resolved} {v : Word} {s t : State} {pw : Bool} (h : wr r v s = .ok pw t) :
    writable r.operand = true := by
  cases r <;> simp_all [writable, Resolved.operand, wr]

/-- R85: a write through code 0x1C is the one that counts as a jump. -/
theorem wr_jumps {r : Resolved} {v : Word} {s t : State} {pw : Bool} (h : wr r v s = .ok pw t) :
    pw = (r.operand == .pc) := by
  cases r <;> simp_all [Resolved.operand, wr]

/-- R65: whatever `wr` raises is the fault of a read-only mode, in the unchanged state. -/
theorem wr_raise {r : Resolved} {v : Word} {s t : State} {k : FaultKind} {c : Code} (h : wr r v s = .raise k c t) :
    writable r.operand = false ∧ k = .writeOfReadOnly ∧ c = encodeOperand r.operand ∧ t = s := by
  cases r <;> simp_all [writable, Resolved.operand, wr]

theorem wr_raise_of_not_writable (r : Resolved) (v : Word) (s : State) (h : writable r.operand = false) :
    wr r v s = .raise .writeOfReadOnly (encodeOperand r.operand) s := by
  cases r <;> simp_all [writable, Resolved.operand, wr]

theorem wr_wf {r : Resolved} {v : Word} {s t : State} {pw : Bool} (h : wr r v s = .ok pw t) (hs : s.mem.wf = true) :
    t.mem.wf = true := by
  cases r <;> simp only [wr, popWrite, Access.ok.injEq, reduceCtorEq] at h <;> obtain ⟨-, rfl⟩ := h <;>
    first
    | exact hs
    | exact State.memWrite_wf _ _ hs
    | (rw [popMove_mem]; exact State.memWrite_wf _ _ hs)

/-- R65: the cells a write leaves: only the one it stores to changes. -/
theorem wr_cell {r : Resolved} {v : Word} {s t : State} {pw : Bool} (h : wr r v s = .ok pw t) (x : Word) :
    t.cell x = if r.writeAddr s = some x then v else s.cell x := by
  cases r <;> simp only [wr, popWrite, Access.ok.injEq, reduceCtorEq] at h <;> obtain ⟨-, rfl⟩ := h <;>
    simp [Resolved.writeAddr, State.cell_memWrite, eq_comm]

/-- R65: the fields no write touches. -/
theorem wr_control {r : Resolved} {v : Word} {s t : State} {pw : Bool} (h : wr r v s = .ok pw t) :
    t.skip = s.skip ∧ t.loaded = s.loaded ∧ t.faulted = s.faulted ∧ t.params = s.params ∧ t.result = s.result := by
  cases r <;> simp only [wr, Access.ok.injEq, reduceCtorEq] at h <;> obtain ⟨-, rfl⟩ := h <;>
    first
    | exact ⟨rfl, rfl, rfl, rfl, rfl⟩
    | exact ⟨((Quiet.memWrite s _ v).trans (Quiet.popMove _ _)).skip, ((Quiet.memWrite s _ v).trans (Quiet.popMove _ _)).loaded,
        ((Quiet.memWrite s _ v).trans (Quiet.popMove _ _)).faulted, ((Quiet.memWrite s _ v).trans (Quiet.popMove _ _)).params,
        ((Quiet.memWrite s _ v).trans (Quiet.popMove _ _)).result⟩

theorem popWrite_quiet (sa : Option Word) (v : Word) (s : State) : Quiet s (popWrite sa v s) :=
  (Quiet.memWrite s _ v).trans (Quiet.popMove _ _)

/-- R65: the general registers after a write through `r`. -/
def wrRegs (r : Resolved) (v : Word) (s : State) : Regs :=
  match r with
  | .reg g => s.regs.set g v
  | .ind _ | .indNext _ _ _ | .pop _ | .peek | .push | .sp | .pc | .o | .nextInd _ | .next _ | .lit _ => s.regs

/-- R65: a write changes a general register only through a register operand. -/
theorem wr_regs {r : Resolved} {v : Word} {s t : State} {pw : Bool} (h : wr r v s = .ok pw t) :
    t.regs = wrRegs r v s := by
  cases r <;> simp only [wr, Access.ok.injEq, reduceCtorEq] at h <;> obtain ⟨-, rfl⟩ := h <;>
    first | rfl | exact (popWrite_quiet _ v s).regs

/-- R65: a register that is not the written operand keeps its value. -/
theorem wr_reg_other {r : Resolved} {v : Word} {s t : State} {pw : Bool} (h : wr r v s = .ok pw t) {g : Reg}
    (hg : r.operand ≠ .reg g) : t.regs.get g = s.regs.get g := by
  rw [wr_regs h]
  cases r with
  | reg q => exact Regs.get_set_other _ v (fun e => hg (by rw [e]; rfl))
  | _ => rfl

/-- R65: a write changes O only through code 0x1D. -/
theorem wr_o {r : Resolved} {v : Word} {s t : State} {pw : Bool} (h : wr r v s = .ok pw t) :
    t.o = if r.operand = .o then v else s.o := by
  cases r <;> simp only [wr, Access.ok.injEq, reduceCtorEq] at h <;> obtain ⟨-, rfl⟩ := h <;>
    first | rfl | exact (popWrite_quiet _ v s).o

/-- R65: a write changes PC only through code 0x1C. -/
theorem wr_pc {r : Resolved} {v : Word} {s t : State} {pw : Bool} (h : wr r v s = .ok pw t) :
    t.pc = if r.operand = .pc then v else s.pc := by
  cases r <;> simp only [wr, popWrite, Access.ok.injEq, reduceCtorEq] at h <;> obtain ⟨-, rfl⟩ := h <;>
    simp [Resolved.operand]

/-- R65: SP after a write through `r`. -/
def wrSp (r : Resolved) (v : Word) (s : State) : Word :=
  match r with
  | .sp => v
  | .push => s.sp - 1
  | .pop sa => (popMove sa s).sp
  | .reg _ | .ind _ | .indNext _ _ _ | .peek | .pc | .o | .nextInd _ | .next _ | .lit _ => s.sp

theorem wr_sp {r : Resolved} {v : Word} {s t : State} {pw : Bool} (h : wr r v s = .ok pw t) : t.sp = wrSp r v s := by
  cases r <;> simp only [wr, Access.ok.injEq, reduceCtorEq] at h <;> obtain ⟨-, rfl⟩ := h <;>
    first
    | rfl
    | (simp only [wrSp, popWrite, popMove, State.memWrite_params, State.memWrite_sp]; repeat' split
       all_goals simp)

/-! ### The reads of an instruction (R79, R86) -/

/-- R86: the reads go on exactly when both `rd` do. -/
theorem readBoth_eq_ok {a b : Operand} {s t : State} {v : Reads} :
    readBoth a b s = .ok v t ↔ ∃ va s1 vb,
      rd (process a s).1 (process b (process a s).2).2 = .ok va s1 ∧ rd (process b (process a s).2).1 s1 = .ok vb t ∧
      v = { a := va.1, b := vb.1, dst := va.2 } := by
  simp only [readBoth, Access.bind_eq_ok, Access.ok.injEq]
  constructor
  · rintro ⟨va, s1, h1, vb, s2, h2, rfl, rfl⟩; exact ⟨va, s1, vb, h1, h2, rfl⟩
  · rintro ⟨va, s1, vb, h1, h2, rfl⟩; exact ⟨va, s1, h1, vb, t, h2, rfl, rfl⟩

/-- R91: SET's one read. -/
theorem readSource_eq_ok {a b : Operand} {s t : State} {v : Word × Resolved} :
    readSource a b s = .ok v t ↔ ∃ vb,
      rd (process b (process a s).2).1 (process b (process a s).2).2 = .ok vb t ∧ v = (vb.1, (process a s).1) := by
  simp only [readSource, Access.bind_eq_ok, Access.ok.injEq]
  constructor
  · rintro ⟨vb, s1, h1, rfl, rfl⟩; exact ⟨vb, h1, rfl⟩
  · rintro ⟨vb, h1, rfl⟩; exact ⟨vb, t, h1, rfl, rfl⟩

theorem readBoth_quiet {a b : Operand} {s t : State} {v : Reads} (h : readBoth a b s = .ok v t) : Quiet s t := by
  obtain ⟨va, s1, vb, h1, h2, -⟩ := readBoth_eq_ok.1 h
  exact (((process_quiet a s).trans (process_quiet b _)).trans (rd_quiet h1)).trans (rd_quiet h2)

theorem readSource_quiet {a b : Operand} {s t : State} {v : Word × Resolved} (h : readSource a b s = .ok v t) :
    Quiet s t := by
  obtain ⟨vb, h1, -⟩ := readSource_eq_ok.1 h
  exact ((process_quiet a s).trans (process_quiet b _)).trans (rd_quiet h1)

/-- R16: after the reads PC is on the instruction's last Word. -/
theorem readBoth_pc {a b : Operand} {s t : State} {v : Reads} (h : readBoth a b s = .ok v t) :
    t.pc = s.pc + BitVec.ofNat 16 a.nextWords + BitVec.ofNat 16 b.nextWords := by
  obtain ⟨va, s1, vb, h1, h2, -⟩ := readBoth_eq_ok.1 h
  rw [rd_pc h2, rd_pc h1, process_pc, process_pc]

theorem readSource_pc {a b : Operand} {s t : State} {v : Word × Resolved} (h : readSource a b s = .ok v t) :
    t.pc = s.pc + BitVec.ofNat 16 a.nextWords + BitVec.ofNat 16 b.nextWords := by
  obtain ⟨vb, h1, -⟩ := readSource_eq_ok.1 h
  rw [rd_pc h1, process_pc, process_pc]

theorem readBoth_wf {a b : Operand} {s t : State} {v : Reads} (h : readBoth a b s = .ok v t) (hs : s.mem.wf = true) :
    t.mem.wf = true := by
  obtain ⟨va, s1, vb, h1, h2, -⟩ := readBoth_eq_ok.1 h
  exact rd_wf h2 (rd_wf h1 (process_wf (process_wf hs)))

theorem readSource_wf {a b : Operand} {s t : State} {v : Word × Resolved} (h : readSource a b s = .ok v t)
    (hs : s.mem.wf = true) : t.mem.wf = true := by
  obtain ⟨vb, h1, -⟩ := readSource_eq_ok.1 h
  exact rd_wf h1 (process_wf (process_wf hs))

theorem readBoth_dst {a b : Operand} {s t : State} {v : Reads} (h : readBoth a b s = .ok v t) : v.dst.operand = a := by
  obtain ⟨va, s1, vb, h1, h2, rfl⟩ := readBoth_eq_ok.1 h
  simp [rd_dst_operand h1]

theorem readSource_dst {a b : Operand} {s t : State} {v : Word × Resolved} (h : readSource a b s = .ok v t) :
    v.2.operand = a := by
  obtain ⟨vb, h1, rfl⟩ := readSource_eq_ok.1 h
  simp

/-- R64: readable operands are read. -/
theorem readBoth_ok (a b : Operand) (s : State) (ha : readable a = true) (hb : readable b = true) :
    ∃ v t, readBoth a b s = .ok v t := by
  obtain ⟨va, s1, h1⟩ := rd_ok_of_readable (process a s).1 (process b (process a s).2).2 (by simpa using ha)
  obtain ⟨vb, s2, h2⟩ := rd_ok_of_readable (process b (process a s).2).1 s1 (by simpa using hb)
  exact ⟨_, s2, readBoth_eq_ok.2 ⟨va, s1, vb, h1, h2, rfl⟩⟩

theorem readSource_ok (a b : Operand) (s : State) (hb : readable b = true) : ∃ v t, readSource a b s = .ok v t := by
  obtain ⟨vb, s2, h2⟩ := rd_ok_of_readable (process b (process a s).2).1 (process b (process a s).2).2 (by simpa using hb)
  exact ⟨_, s2, readSource_eq_ok.2 ⟨vb, h2, rfl⟩⟩

/-- R86, R87: the writes of an instruction that writes O, in either order. -/
theorem writeResultAndOverflow_eq_ok {dst : Resolved} {pair : Word × Word} {s t : State} {pw : Bool} :
    writeResultAndOverflow dst pair s = .ok pw t ↔
      (s.params.overflowWriteOrder = .resultThenOverflow ∧ ∃ u, wr dst pair.1 s = .ok pw u ∧ t = u.setO pair.2) ∨
      (s.params.overflowWriteOrder = .overflowThenResult ∧ wr dst pair.1 (s.setO pair.2) = .ok pw t) := by
  unfold writeResultAndOverflow
  cases h : s.params.overflowWriteOrder
  · simp only [Access.bind_eq_ok, Access.ok.injEq, true_and, reduceCtorEq, false_and, or_false]
    constructor
    · rintro ⟨u, t', h, rfl, rfl⟩; exact ⟨t', h, rfl⟩
    · rintro ⟨u, h, rfl⟩; exact ⟨pw, u, h, rfl, rfl⟩
  · simp

end Sys2Proof.Machine
end

