-- ==== Sys2Proof/Laws/Apply.lean ====
section
/-! SUPPORT. What executing an instruction can do, said once: how `apply` ends and what `finish` makes of it, and the
inversion of a step. -/

namespace Sys2Proof.Machine

/-- The `apply` of each instruction but the halt sentinel (R86). -/
def applied (i : Instr) (s : State) : Access Bool :=
  match i with
  | .set a b => applySet a b s
  | .add a b => applyWithOverflow (fun _ x y => addPair x y) a b s
  | .sub a b => applyWithOverflow (fun _ x y => subPair x y) a b s
  | .mul a b => applyWithOverflow (fun sem x y => underSemantics sem .mul (mulPair x y) x y) a b s
  | .div a b => applyWithOverflow divUnder a b s
  | .mod a b => applyPlain modResult a b s
  | .shl a b => applyWithOverflow (fun sem x y => underSemantics sem .shl (shlPair x y) x y) a b s
  | .shr a b => applyWithOverflow (fun sem x y => underSemantics sem .shr (shrPair x y) x y) a b s
  | .and a b => applyPlain (fun x y => x &&& y) a b s
  | .bor a b => applyPlain (fun x y => x ||| y) a b s
  | .xor a b => applyPlain (fun x y => x ^^^ y) a b s
  | .ife a b => applyIf condE a b s
  | .ifn a b => applyIf condN a b s
  | .ifg a b => applyIf condG a b s
  | .ifb a b => applyIf condB a b s
  | .jsr a => applyJsr a s
  | .halt _ _ => .ok true s

/-- Every instruction but the halt sentinel is its `apply`, finished (R84). -/
theorem exec_eq_finish (i : Instr) (s : State) (h : i.isHalt = false) : exec i s = finish i s.pc (applied i s) := by
  cases i <;> first | rfl | simp [Instr.isHalt] at h

theorem exec_halt (fa fb : Code) (s : State) : exec (.halt fa fb) s = .next (s.returning .halted) := rfl

/-! ### finish -/

theorem finish_ok (i : Instr) (p : Word) (pw : Bool) (s : State) :
    finish i p (.ok pw s) = .next ((if pw then s else s.incPc).returning .executed) := rfl

theorem finish_raise (i : Instr) (p : Word) (k : FaultKind) (c : Code) (s : State) :
    finish i p (.raise k c s) = .fault (.invalidOperation { kind := k, code := c, word := encode i, addr := p }
      { s with faulted := some { kind := k, code := c, word := encode i, addr := p } }) := rfl

/-- A finished step that completes came from an `apply` that went on. -/
theorem finish_eq_next {i : Instr} {p : Word} {m : Access Bool} {t : State} :
    finish i p m = .next t ↔ ∃ pw u, m = .ok pw u ∧ t = (if pw then u else u.incPc).returning .executed := by
  cases m <;> simp [finish, raiseInvalidOperation, eq_comm]

/-- A finished step that faults came from an `apply` that raised. -/
theorem finish_eq_fault {i : Instr} {p : Word} {m : Access Bool} {f : Fault} :
    finish i p m = .fault f ↔ ∃ k c u, m = .raise k c u ∧
      f = .invalidOperation { kind := k, code := c, word := encode i, addr := p }
        { u with faulted := some { kind := k, code := c, word := encode i, addr := p } } := by
  cases m <;> simp [finish, raiseInvalidOperation, eq_comm]

theorem finish_not_refused (i : Instr) (p : Word) (m : Access Bool) (r : Refusal) : finish i p m ≠ .refused r := by
  cases m <;> simp [finish, raiseInvalidOperation]

/-! ### apply -/

/-- How `apply_set` goes on. -/
theorem applySet_eq_ok {a b : Operand} {s t : State} {pw : Bool} :
    applySet a b s = .ok pw t ↔ ∃ v s1, readSource a b s = .ok v s1 ∧ wr v.2 v.1 s1 = .ok pw t := by
  simp [applySet, Access.bind_eq_ok]

/-- How an `apply_binary` that leaves O alone goes on. -/
theorem applyPlain_eq_ok {f : Word → Word → Word} {a b : Operand} {s t : State} {pw : Bool} :
    applyPlain f a b s = .ok pw t ↔ ∃ v s1, readBoth a b s = .ok v s1 ∧ wr v.dst (f v.a v.b) s1 = .ok pw t := by
  simp [applyPlain, Access.bind_eq_ok]

/-- How an `apply_binary` that writes O goes on. -/
theorem applyWithOverflow_eq_ok {f : ArithSemantics → Word → Word → Word × Word} {a b : Operand} {s t : State}
    {pw : Bool} :
    applyWithOverflow f a b s = .ok pw t ↔ ∃ v s1, readBoth a b s = .ok v s1 ∧
      writeResultAndOverflow v.dst (f s1.params.arithSemantics v.a v.b) s1 = .ok pw t := by
  simp [applyWithOverflow, Access.bind_eq_ok]

/-- How `apply_if` goes on. -/
theorem applyIf_eq_ok {cond : Word → Word → Bool} {a b : Operand} {s t : State} {pw : Bool} :
    applyIf cond a b s = .ok pw t ↔ ∃ v s1, readBoth a b s = .ok v s1 ∧ pw = false ∧
      t = if cond v.a v.b then s1 else s1.setSkip true := by
  simp only [applyIf, Access.bind_eq_ok, Access.ok.injEq]
  constructor
  · rintro ⟨v, s1, h, rfl, rfl⟩; exact ⟨v, s1, h, rfl, rfl⟩
  · rintro ⟨v, s1, h, rfl, rfl⟩; exact ⟨v, s1, h, rfl, rfl⟩

/-- How `apply_jsr` goes on. -/
theorem applyJsr_eq_ok {a : Operand} {s t : State} {pw : Bool} :
    applyJsr a s = .ok pw t ↔ ∃ v s1, rd (process a s).1 (process a s).2 = .ok v s1 ∧ pw = true ∧
      t = ((s1.setSp (s1.sp - 1)).memWrite (s1.sp - 1) s1.pc).setPc v.1 := by
  simp only [applyJsr, Access.bind_eq_ok, Access.ok.injEq]
  constructor
  · rintro ⟨v, s1, h, rfl, rfl⟩; exact ⟨v, s1, h, rfl, rfl⟩
  · rintro ⟨v, s1, h, rfl, rfl⟩; exact ⟨v, s1, h, rfl, rfl⟩

/-- R86, R87: how the writes of an instruction that writes O raise: nothing of the result is written, and O is
written before only under `OverflowThenResult`. -/
theorem writeResultAndOverflow_eq_raise {dst : Resolved} {pair : Word × Word} {s t : State} {k : FaultKind} {c : Code}
    (h : writeResultAndOverflow dst pair s = .raise k c t) :
    writable dst.operand = false ∧ k = .writeOfReadOnly ∧ c = encodeOperand dst.operand ∧
      t = if s.params.overflowWriteOrder = .resultThenOverflow then s else s.setO pair.2 := by
  unfold writeResultAndOverflow at h
  cases hp : s.params.overflowWriteOrder <;> simp only [hp, Access.bind_eq_raise, reduceCtorEq, and_false, exists_false,
    or_false] at h <;> simpa using wr_raise h

theorem writeResultAndOverflow_ok_of_writable (dst : Resolved) (pair : Word × Word) (s : State)
    (h : writable dst.operand = true) : ∃ pw t, writeResultAndOverflow dst pair s = .ok pw t := by
  simp only [writeResultAndOverflow_eq_ok]
  cases hp : s.params.overflowWriteOrder
  · obtain ⟨t, ht⟩ := wr_ok_of_writable dst pair.1 s h
    exact ⟨_, _, .inl ⟨rfl, t, ht, rfl⟩⟩
  · obtain ⟨t, ht⟩ := wr_ok_of_writable dst pair.1 (s.setO pair.2) h
    exact ⟨_, t, .inr ⟨rfl, ht⟩⟩

/-! ### The step -/

/-- R80: a step is not refused exactly when a program is loaded and no fault mark is set. -/
theorem stepRefusal_eq_none {s : State} : stepRefusal s = none ↔ s.loaded = true ∧ s.faulted = none := by
  cases hl : s.loaded <;> cases hf : s.faulted <;> simp [stepRefusal, hl, hf]

/-- R80: what a step that is not refused does. -/
theorem step_of_ready {s : State} (hl : s.loaded = true) (hf : s.faulted = none) :
    step s = if skips (decodeWord (fetch s.beginCall).1) (fetch s.beginCall).2 then
      .next (skipStep (decodeWord (fetch s.beginCall).1) (fetch s.beginCall).2)
    else exec (decodeWord (fetch s.beginCall).1) (fetch s.beginCall).2 := by
  simp [step, stepRefusal, hl, hf]

/-- R81: the fetched word is that of the cell at PC. -/
theorem fetch_word (s : State) : (fetch s).1 = s.cell s.pc := by
  unfold fetch; split <;> rfl

/-- R81: the state after the fetch. -/
theorem fetch_state (s : State) :
    (fetch s).2 = if s.params.fetchClearsKeyboard = true then s.afterRead s.pc else s := by
  unfold fetch; split <;> simp_all

theorem fetch_quiet (s : State) : Quiet s (fetch s).2 := by
  rw [fetch_state]; split
  · exact Quiet.afterRead s _
  · exact Quiet.refl s

@[simp] theorem fetch_pc (s : State) : (fetch s).2.pc = s.pc := by
  rw [fetch_state]; split <;> simp

@[simp] theorem fetch_sp (s : State) : (fetch s).2.sp = s.sp := by
  rw [fetch_state]; split <;> simp

/-- R31, R81: the cells the fetch leaves. -/
theorem fetch_cell (s : State) (x : Word) :
    (fetch s).2.cell x =
      if s.params.fetchClearsKeyboard = true ∧ x = s.pc ∧ regionOf x = .keyboard then 0 else s.cell x := by
  rw [fetch_state]
  by_cases h : s.params.fetchClearsKeyboard = true <;> simp [h, State.cell_afterRead]

/-- The inversion of a step that completes: it was ready, and it skipped an instruction or executed one. -/
theorem step_eq_next {s t : State} (h : step s = .next t) :
    s.loaded = true ∧ s.faulted = none ∧
      ((s.skip = true ∧ (decodeWord (s.cell s.pc)).isHalt = false ∧
          t = skipStep (decodeWord (s.cell s.pc)) (fetch s.beginCall).2) ∨
        ((s.skip = false ∨ (decodeWord (s.cell s.pc)).isHalt = true) ∧
          exec (decodeWord (s.cell s.pc)) (fetch s.beginCall).2 = .next t)) := by
  have hw : (fetch s.beginCall).1 = s.cell s.pc := fetch_word s.beginCall
  have hk : (fetch s.beginCall).2.skip = s.skip := (fetch_quiet s.beginCall).skip
  unfold step at h
  split at h
  · cases h
  · next hr =>
    obtain ⟨hl, hf⟩ := stepRefusal_eq_none.1 hr
    refine ⟨hl, hf, ?_⟩
    simp only [hw] at h
    split at h
    · next hs =>
      simp only [skips, hk, Bool.and_eq_true, Bool.not_eq_true'] at hs
      exact .inl ⟨hs.1, hs.2, by simpa [eq_comm] using h⟩
    · next hs =>
      refine .inr ⟨?_, h⟩
      simp only [skips, hk, Bool.and_eq_true, Bool.not_eq_true', not_and, Bool.not_eq_false] at hs
      cases hsk : s.skip
      · exact .inl rfl
      · exact .inr (hs hsk)

/-- The inversion of a step that faults: it executed an instruction. -/
theorem step_eq_fault {s : State} {f : Fault} (h : step s = .fault f) :
    s.loaded = true ∧ s.faulted = none ∧ exec (decodeWord (s.cell s.pc)) (fetch s.beginCall).2 = .fault f := by
  have hw : (fetch s.beginCall).1 = s.cell s.pc := fetch_word s.beginCall
  unfold step at h
  split at h
  · cases h
  · next hr =>
    obtain ⟨hl, hf⟩ := stepRefusal_eq_none.1 hr
    refine ⟨hl, hf, ?_⟩
    simp only [hw] at h
    split at h
    · cases h
    · exact h

/-! ### The skipped step (R83) -/

theorem foldl_noOp_quiet (ops : List Operand) (s : State) : Quiet s (ops.foldl (fun t op => noOp op t) s) := by
  induction ops generalizing s with
  | nil => exact Quiet.refl s
  | cons op ops ih => exact (noOp_quiet op s).trans (ih _)

theorem foldl_noOp_mem (ops : List Operand) (s : State) :
    (ops.foldl (fun t op => noOp op t) s).mem = s.mem ∧ (ops.foldl (fun t op => noOp op t) s).sp = s.sp := by
  induction ops generalizing s with
  | nil => exact ⟨rfl, rfl⟩
  | cons op ops ih => obtain ⟨h1, h2⟩ := ih (noOp op s); exact ⟨by simpa using h1, by simpa using h2⟩

theorem foldl_noOp_pc (ops : List Operand) (s : State) :
    (ops.foldl (fun t op => noOp op t) s).pc = s.pc + BitVec.ofNat 16 (ops.map Operand.nextWords).sum := by
  induction ops generalizing s with
  | nil => simp
  | cons op ops ih => simp only [List.foldl_cons, ih, noOp_pc, List.map_cons, List.sum_cons, BitVec.ofNat_add]; ring

/-- R85: after a skipped step PC is past the instruction's last word. -/
theorem skipStep_pc (i : Instr) (s : State) : (skipStep i s).pc = s.pc + BitVec.ofNat 16 i.length := by
  simp only [skipStep, State.returning_pc, State.incPc_pc, State.setSkip_pc, foldl_noOp_pc, Instr.length,
    BitVec.ofNat_add, BitVec.add_assoc, BitVec.add_comm 1#16]
  rfl

theorem skipStep_mem (i : Instr) (s : State) : (skipStep i s).mem = s.mem ∧ (skipStep i s).sp = s.sp :=
  foldl_noOp_mem i.operands s

end Sys2Proof.Machine
end

