-- ==== Sys2Proof/Laws/Decode.lean ====
section
/-! SUPPORT. The fields of a packed word and the codes of the operands. -/

namespace Sys2Proof

/-- R47: a packed word as a number. -/
theorem packWord_toNat (fb fa : Code) (op : BitVec 4) :
    (packWord fb fa op).toNat = fb.toNat * 0x400 + fa.toNat * 0x10 + op.toNat := by
  have hb : fb.toNat < 2 ^ 6 := fb.isLt
  have ha : fa.toNat < 2 ^ 6 := fa.isLt
  have ho : op.toNat < 2 ^ 4 := op.isLt
  have e1 : (fa.toNat <<< 4 ||| op.toNat) = fa.toNat * 16 + op.toNat := by
    rw [← Nat.shiftLeft_add_eq_or_of_lt ho, Nat.shiftLeft_eq]
  have e2 : (fb.toNat <<< 10 ||| (fa.toNat * 16 + op.toNat)) = fb.toNat * 1024 + (fa.toNat * 16 + op.toNat) := by
    rw [← Nat.shiftLeft_add_eq_or_of_lt (by omega), Nat.shiftLeft_eq]
  simp only [packWord, BitVec.toNat_or, BitVec.toNat_shiftLeft, BitVec.toNat_setWidth]
  rw [Nat.mod_eq_of_lt (a := fb.toNat) (by omega), Nat.mod_eq_of_lt (a := fa.toNat) (by omega),
    Nat.mod_eq_of_lt (a := op.toNat) (by omega),
    Nat.mod_eq_of_lt (a := fb.toNat <<< 10) (by rw [Nat.shiftLeft_eq]; omega),
    Nat.mod_eq_of_lt (a := fa.toNat <<< 4) (by rw [Nat.shiftLeft_eq]; omega), Nat.or_assoc, e1, e2]
  omega

theorem fieldOp_toNat (w : Word) : (fieldOp w).toNat = w.toNat % 0x10 := by
  simp [fieldOp]

theorem fieldA_toNat (w : Word) : (fieldA w).toNat = w.toNat / 0x10 % 0x40 := by
  simp [fieldA, Nat.shiftRight_eq_div_pow]

theorem fieldB_toNat (w : Word) : (fieldB w).toNat = w.toNat / 0x400 := by
  have := w.isLt
  simp [fieldB, Nat.shiftRight_eq_div_pow]; omega

@[simp] theorem fieldOp_packWord (fb fa : Code) (op : BitVec 4) : fieldOp (packWord fb fa op) = op := by
  apply BitVec.eq_of_toNat_eq
  have := op.isLt
  rw [fieldOp_toNat, packWord_toNat]; omega

@[simp] theorem fieldA_packWord (fb fa : Code) (op : BitVec 4) : fieldA (packWord fb fa op) = fa := by
  apply BitVec.eq_of_toNat_eq
  have := op.isLt
  have := fa.isLt
  rw [fieldA_toNat, packWord_toNat]; omega

@[simp] theorem fieldB_packWord (fb fa : Code) (op : BitVec 4) : fieldB (packWord fb fa op) = fb := by
  apply BitVec.eq_of_toNat_eq
  have := op.isLt
  have := fa.isLt
  rw [fieldB_toNat, packWord_toNat]; omega

/-- R47: a word is its fields, packed. -/
theorem packWord_fields (w : Word) : packWord (fieldB w) (fieldA w) (fieldOp w) = w := by
  apply BitVec.eq_of_toNat_eq
  rw [packWord_toNat, fieldA_toNat, fieldB_toNat, fieldOp_toNat]; omega

/-- R50: every mode's code decodes to the mode. -/
@[simp] theorem decodeOperand_encodeOperand (op : Operand) : decodeOperand (encodeOperand op) = op := by
  cases op with
  | reg r => cases r <;> rfl
  | ind r => cases r <;> rfl
  | indNext r => cases r <;> rfl
  | lit v => revert v; decide
  | _ => rfl

/-- R50: every code is that of the mode it decodes to. -/
@[simp] theorem encodeOperand_decodeOperand (c : Code) : encodeOperand (decodeOperand c) = c := by
  revert c; decide

/-- R49: the next words of a mode, told from its code. -/
@[simp] theorem codeNextWords_encodeOperand (op : Operand) : codeNextWords (encodeOperand op) = op.nextWords := by
  cases op with
  | reg r => cases r <;> rfl
  | ind r => cases r <;> rfl
  | indNext r => cases r <;> rfl
  | lit v => revert v; decide
  | _ => rfl

end Sys2Proof
end

