-- ==== Sys2Proof/Laws/PerInstr.lean ====
section
/-! SUPPORT. Statements made per instruction. `Length`: the length told from the encoded word is the instruction's
(R49). -/

namespace Sys2Proof.Laws.Length

/-- R49: the instruction word alone tells the length, the sum of 1 and the operands' next words. -/
def Statement (i : Instr) : Prop := i.wf = true → lengthOfWord (encode i) = i.length

theorem set (a b : Operand) : Statement (.set a b) := by
  intro _; simp [lengthOfWord, encode, Instr.length, Instr.operands]; omega

theorem add (a b : Operand) : Statement (.add a b) := by
  intro _; simp [lengthOfWord, encode, Instr.length, Instr.operands]; omega

theorem sub (a b : Operand) : Statement (.sub a b) := by
  intro _; simp [lengthOfWord, encode, Instr.length, Instr.operands]; omega

theorem mul (a b : Operand) : Statement (.mul a b) := by
  intro _; simp [lengthOfWord, encode, Instr.length, Instr.operands]; omega

theorem div (a b : Operand) : Statement (.div a b) := by
  intro _; simp [lengthOfWord, encode, Instr.length, Instr.operands]; omega

theorem mod (a b : Operand) : Statement (.mod a b) := by
  intro _; simp [lengthOfWord, encode, Instr.length, Instr.operands]; omega

theorem shl (a b : Operand) : Statement (.shl a b) := by
  intro _; simp [lengthOfWord, encode, Instr.length, Instr.operands]; omega

theorem shr (a b : Operand) : Statement (.shr a b) := by
  intro _; simp [lengthOfWord, encode, Instr.length, Instr.operands]; omega

theorem and (a b : Operand) : Statement (.and a b) := by
  intro _; simp [lengthOfWord, encode, Instr.length, Instr.operands]; omega

theorem bor (a b : Operand) : Statement (.bor a b) := by
  intro _; simp [lengthOfWord, encode, Instr.length, Instr.operands]; omega

theorem xor (a b : Operand) : Statement (.xor a b) := by
  intro _; simp [lengthOfWord, encode, Instr.length, Instr.operands]; omega

theorem ife (a b : Operand) : Statement (.ife a b) := by
  intro _; simp [lengthOfWord, encode, Instr.length, Instr.operands]; omega

theorem ifn (a b : Operand) : Statement (.ifn a b) := by
  intro _; simp [lengthOfWord, encode, Instr.length, Instr.operands]; omega

theorem ifg (a b : Operand) : Statement (.ifg a b) := by
  intro _; simp [lengthOfWord, encode, Instr.length, Instr.operands]; omega

theorem ifb (a b : Operand) : Statement (.ifb a b) := by
  intro _; simp [lengthOfWord, encode, Instr.length, Instr.operands]; omega

theorem jsr (a : Operand) : Statement (.jsr a) := by
  intro _; simp [lengthOfWord, encode, Instr.length, Instr.operands]

theorem halt (fa fb : Code) : Statement (.halt fa fb) := by
  intro h
  have hfa : ¬fa = 1#6 := by simpa [Instr.wf] using h
  simp [lengthOfWord, encode, Instr.length, Instr.operands, hfa]

end Sys2Proof.Laws.Length

namespace Sys2Proof

/-- R49: the length of every well-formed instruction is told by its word. -/
theorem lengthOfWord_encode (i : Instr) (h : i.wf = true) : lengthOfWord (encode i) = i.length := by
  cases i with
  | set a b => exact Laws.Length.set a b h
  | add a b => exact Laws.Length.add a b h
  | sub a b => exact Laws.Length.sub a b h
  | mul a b => exact Laws.Length.mul a b h
  | div a b => exact Laws.Length.div a b h
  | mod a b => exact Laws.Length.mod a b h
  | shl a b => exact Laws.Length.shl a b h
  | shr a b => exact Laws.Length.shr a b h
  | and a b => exact Laws.Length.and a b h
  | bor a b => exact Laws.Length.bor a b h
  | xor a b => exact Laws.Length.xor a b h
  | ife a b => exact Laws.Length.ife a b h
  | ifn a b => exact Laws.Length.ifn a b h
  | ifg a b => exact Laws.Length.ifg a b h
  | ifb a b => exact Laws.Length.ifb a b h
  | jsr a => exact Laws.Length.jsr a h
  | halt fa fb => exact Laws.Length.halt fa fb h

end Sys2Proof
end

