-- ==== Sys2Proof/Tests/Slice0.lean ====
section
/-! SUPPORT. Tests. The expected results are the vectors of spec/95_test_vectors.md (named in each comment) or the
worked examples of the rules; the witnesses show states and operands that meet a statement's hypotheses. -/

namespace Sys2Proof.Tests

open Sys2Proof Sys2Proof.Machine Sys2Proof.Safety Sys2Proof.Claims

/-! ### Small states -/

/-- The state after `load_program` of the Words, without the notifications. -/
def loadedWith (ws : List Word) : State := { State.reset with mem := Mem.place [] 0 ws }

/-- A register set before the step. -/
def withReg (s : State) (r : Reg) (v : Word) : State := { s with regs := s.regs.set r v }

/-- A memory cell set before the step. -/
def withCell (s : State) (a v : Word) : State := { s with mem := s.mem.write a.toNat v }

/-- `f` of the next state of a step; `none` where the step stops. -/
def afterStep {α : Type} (s : State) (f : State → α) : Option α :=
  match step s with
  | .next t => some (f t)
  | .fault _ | .refused _ => none

/-- The information of the fault of a step, and `f` of the state it leaves. -/
def faultOfStep {α : Type} (s : State) (f : State → α) : Option (FaultInfo × α) :=
  match step s with
  | .fault (.invalidOperation info left) => some (info, f left)
  | .next _ | .refused _ => none

/-- The refusal of a step. -/
def refusalOfStep (s : State) : Option Refusal :=
  match step s with
  | .refused r => some r
  | .next _ | .fault _ => none

/-! ### Well-formedness: the one check, and what it lets through -/

theorem test_wf_refuses_halt_with_jsr_marker : (Instr.halt 0x01 0x00).wf = false := by decide
theorem test_wf_accepts_halt : (Instr.halt 0x02 0x3F).wf = true := by decide
theorem test_wf_accepts_literal_destination : (Instr.set (.lit 5) .push).wf = true := by decide

/-! ### Decoding: words written out bit by bit from R47, R48, R50, R51 -/

/-- E2, T1: `SET I, 10`. -/
theorem test_decode_set : decodeWord 0b101010_000110_0001 = .set (.reg .i) (.lit 10) := by decide
/-- `ADD POP, PEEK`. -/
theorem test_decode_add : decodeWord 0b011001_011000_0010 = .add .pop .peek := by decide
/-- `SUB [X], [n+J]`. -/
theorem test_decode_sub : decodeWord 0b010111_001011_0011 = .sub (.ind .x) (.indNext .j) := by decide
/-- T11: `MUL A, A`. -/
theorem test_decode_mul : decodeWord 0b000000_000000_0100 = .mul (.reg .a) (.reg .a) := by decide
/-- `DIV SP, n`. -/
theorem test_decode_div : decodeWord 0b011111_011011_0101 = .div .sp .next := by decide
/-- `MOD O, [n]`. -/
theorem test_decode_mod : decodeWord 0b011110_011101_0110 = .mod .o .nextInd := by decide
/-- `SHL J, 0`. -/
theorem test_decode_shl : decodeWord 0b100000_000111_0111 = .shl (.reg .j) (.lit 0) := by decide
/-- `SHR Z, Y`. -/
theorem test_decode_shr : decodeWord 0b000100_000101_1000 = .shr (.reg .z) (.reg .y) := by decide
/-- `AND [A], [B]`. -/
theorem test_decode_and : decodeWord 0b001001_001000_1001 = .and (.ind .a) (.ind .b) := by decide
/-- `BOR [n+C], C`. -/
theorem test_decode_bor : decodeWord 0b000010_010010_1010 = .bor (.indNext .c) (.reg .c) := by decide
/-- `XOR PUSH, PC`. -/
theorem test_decode_xor : decodeWord 0b011100_011010_1011 = .xor .push .pc := by decide
/-- E6: `IFE A, 1`. -/
theorem test_decode_ife : decodeWord 0b100001_000000_1100 = .ife (.reg .a) (.lit 1) := by decide
/-- R103: `IFN A, 0x10`. -/
theorem test_decode_ifn : decodeWord 0b110000_000000_1101 = .ifn (.reg .a) (.lit 16) := by decide
/-- R104: `IFG A, 5`. -/
theorem test_decode_ifg : decodeWord 0b100101_000000_1110 = .ifg (.reg .a) (.lit 5) := by decide
/-- T12: `IFB 31, 31`. -/
theorem test_decode_ifb : decodeWord 0b111111_111111_1111 = .ifb (.lit 31) (.lit 31) := by decide
/-- T4: `JSR 4`. -/
theorem test_decode_jsr : decodeWord 0b100100_000001_0000 = .jsr (.lit 4) := by decide
/-- T7, T10. -/
theorem test_decode_halt : decodeWord 0 = .halt 0 0 ∧ decodeWord 0b111111_111111_0000 = .halt 0x3F 0x3F := by decide

/-- R50: the first and the last code of every mode. -/
theorem test_operand_codes :
    [0x00, 0x07, 0x08, 0x0F, 0x10, 0x17, 0x18, 0x19, 0x1A].map decodeOperand =
      [.reg .a, .reg .j, .ind .a, .ind .j, .indNext .a, .indNext .j, .pop, .peek, .push] ∧
    [0x1B, 0x1C, 0x1D, 0x1E, 0x1F, 0x20, 0x3F].map decodeOperand =
      [.sp, .pc, .o, .nextInd, .next, .lit 0, .lit 31] := by decide

/-- E3, T2: `SET A, 0x30` is 0x7C01, 0x0030, and the next Word of the program is left over. -/
theorem test_decode_two_words :
    decode [0x7C01, 0x0030, 0xA861] = .ok { instr := .set (.reg .a) .next, next := [0x0030], rest := [0xA861] } := by
  decide
/-- T3: A's next word first, then B's. -/
theorem test_decode_three_words :
    decode [0x7DE1, 0x1000, 0x0020] = .ok { instr := .set .nextInd .next, next := [0x1000, 0x0020], rest := [] } := by
  decide
theorem test_decode_rejects_short_lists : decode [] = .error .noWord ∧ decode [0x7DE1, 0x1000] = .error .missingNextWords := by
  decide
/-- R130: big-endian pairs; an odd count is no program. -/
theorem test_decode_bytes :
    decodeBytes [0xA8, 0x61] = .ok { instr := .set (.reg .i) (.lit 10), next := [], rest := [] } ∧
      decodeBytes [0xA8] = .error .oddByteCount := by decide

/-- E2, E3, E8: the words the source gives. -/
theorem test_encode_source_words :
    encode (.set (.reg .i) (.lit 10)) = 0xA861 ∧ encode (.set (.reg .a) .next) = 0x7C01 ∧ encode (.jsr (.lit 4)) = 0x9010 := by
  decide
/-- The table's numbering, and the step that runs the word. -/
theorem test_table_word :
    decodeTableWord 16 0x9010 = some (.jsr (.lit 4)) ∧ decodeTableWord 16 0 = some (.halt 0 0) ∧
      afterStep (State.reset.withFetchWord 16 0xA861) (fun t => t.regs.i) = some 10 := by decide

/-! ### Operand modes (95_test_vectors.md L2.2) -/

/-- M9: both next words, both captured registers. -/
theorem test_set_indexed_to_indexed :
    afterStep (withCell (withReg (withReg (loadedWith [0x4501, 1, 2]) .a 0x100) .b 0x200) 0x202 0x55)
      (fun t => (t.cell 0x101, t.pc)) = some (0x55, 3) := by decide
/-- M8: the address wraps to the instruction word. -/
theorem test_set_wraps :
    afterStep (withReg (loadedWith [0x4001, 0xFFFF]) .a 1) (fun t => (t.regs.a, t.pc)) = some (0x4001, 2) := by decide
/-- M10: POP at 0xFFFF wraps SP. -/
theorem test_operand_pop :
    afterStep { withCell (loadedWith [0x6061]) 0xFFFF 0x10 with sp := 0xFFFF } (fun t => (t.regs.i, t.sp, t.pc)) =
      some (0x10, 0, 1) := by decide
/-- M15: `SET PUSH, POP`. -/
theorem test_operand_push_pop :
    afterStep { withCell (loadedWith [0x61A1]) 0xFFFE 0x11 with sp := 0xFFFE } (fun t => (t.cell 0xFFFE, t.sp, t.pc)) =
      some (0x11, 0xFFFE, 1) := by decide
/-- M13: `SET PEEK, 3`. -/
theorem test_operand_peek :
    afterStep { loadedWith [0x8D91] with sp := 0xFFFE } (fun t => (t.cell 0xFFFE, t.sp)) = some (3, 0xFFFE) := by decide
/-- M18 at address 1: `SET B, PC` reads the address of its own word. -/
theorem test_operand_pc :
    afterStep { loadedWith [0x7001, 0x7011] with pc := 1 } (fun t => (t.regs.b, t.pc)) = some (1, 2) := by decide
/-- M20: `ADD PC, 2` gets no post-increment. -/
theorem test_operand_pc_jump : afterStep (loadedWith [0x89C2]) (fun t => t.pc) = some 2 := by decide
/-- M26: the comparison consumes the key. -/
theorem test_operand_keyboard :
    afterStep (withCell (loadedWith [0x7DEC, 0x9000, 0x41]) 0x9000 0x41) (fun t => (t.skip, t.cell 0x9000, t.pc)) =
      some (false, 0, 3) := by decide

/-! ### Instructions (L2.3 to L2.6) -/

/-- A1, A3: the carry, and O cleared without one. -/
theorem test_add :
    afterStep (withReg (withReg (loadedWith [0x0402]) .a 0xFFFF) .b 1) (fun t => (t.regs.a, t.o)) = some (0, 1) ∧
    afterStep { withReg (withReg (loadedWith [0x0402]) .a 3) .b 4 with o := 5 } (fun t => (t.regs.a, t.o)) = some (7, 0) := by
  decide
/-- A4, A6. -/
theorem test_sub :
    afterStep (withReg (loadedWith [0x0403]) .b 1) (fun t => (t.regs.a, t.o)) = some (0xFFFF, 0xFFFF) ∧
    afterStep (withReg (withReg (loadedWith [0x0403]) .a 0x8000) .b 0x7FFF) (fun t => (t.regs.a, t.o)) = some (1, 0) := by
  decide
/-- A7. -/
theorem test_mul :
    afterStep (withReg (withReg (loadedWith [0x0404]) .a 0xFFFF) .b 0xFFFF) (fun t => (t.regs.a, t.o)) =
      some (1, 0xFFFE) := by decide
/-- A11, A12. -/
theorem test_div :
    afterStep (withReg (withReg (loadedWith [0x0405]) .a 1) .b 3) (fun t => (t.regs.a, t.o)) = some (0, 0x5555) ∧
    afterStep { withReg (loadedWith [0x0405]) .a 5 with o := 9 } (fun t => (t.regs.a, t.o)) = some (0, 0) := by decide
/-- A15, A16. -/
theorem test_mod :
    afterStep { withReg (withReg (loadedWith [0x0406]) .a 7) .b 3 with o := 9 } (fun t => (t.regs.a, t.o)) = some (1, 9) ∧
    afterStep (withReg (loadedWith [0x0406]) .a 7) (fun t => t.regs.a) = some 0 := by decide
/-- A18, A19. -/
theorem test_shl :
    afterStep (withReg (withReg (loadedWith [0x0407]) .a 0x8001) .b 1) (fun t => (t.regs.a, t.o)) = some (2, 1) ∧
    afterStep (withReg (withReg (loadedWith [0x0407]) .a 0xFFFF) .b 16) (fun t => (t.regs.a, t.o)) = some (0, 0xFFFF) := by
  decide
/-- A23, A27. -/
theorem test_shr :
    afterStep (withReg (withReg (loadedWith [0x0408]) .a 0x8001) .b 1) (fun t => (t.regs.a, t.o)) = some (0x4000, 0x8000) ∧
    afterStep (withReg (withReg (loadedWith [0x0408]) .a 0xFFFF) .b 40) (fun t => (t.regs.a, t.o)) = some (0, 0) := by decide
/-- B1. -/
theorem test_and :
    afterStep { withReg (withReg (loadedWith [0x0409]) .a 0xF0F0) .b 0xFF00 with o := 3 } (fun t => (t.regs.a, t.o)) =
      some (0xF000, 3) := by decide
/-- B2. -/
theorem test_bor :
    afterStep (withReg (withReg (loadedWith [0x040A]) .a 0xF0F0) .b 0x0F00) (fun t => t.regs.a) = some 0xFFF0 := by decide
/-- B3. -/
theorem test_xor :
    afterStep (withReg (withReg (loadedWith [0x040B]) .a 0xFFFF) .b 0x0F0F) (fun t => t.regs.a) = some 0xF0F0 := by decide
/-- C1, C2. -/
theorem test_ife :
    afterStep (withReg (withReg (loadedWith [0x040C]) .a 1) .b 1) (fun t => (t.skip, t.pc)) = some (false, 1) ∧
    afterStep (withReg (withReg (loadedWith [0x040C]) .a 1) .b 2) (fun t => (t.skip, t.pc)) = some (true, 1) := by decide
/-- C3, C4. -/
theorem test_ifn :
    afterStep (withReg (withReg (loadedWith [0x040D]) .a 1) .b 1) (fun t => t.skip) = some true ∧
    afterStep (withReg (withReg (loadedWith [0x040D]) .a 1) .b 2) (fun t => t.skip) = some false := by decide
/-- C6, C7: not strictly greater; unsigned. -/
theorem test_ifg :
    afterStep (withReg (withReg (loadedWith [0x040E]) .a 1) .b 1) (fun t => t.skip) = some true ∧
    afterStep (withReg (withReg (loadedWith [0x040E]) .a 0x8000) .b 1) (fun t => t.skip) = some false := by decide
/-- C8, C9. -/
theorem test_ifb :
    afterStep (withReg (withReg (loadedWith [0x040F]) .a 0xF0) .b 0x10) (fun t => t.skip) = some false ∧
    afterStep (withReg (withReg (loadedWith [0x040F]) .a 0xF0) .b 0x0F) (fun t => t.skip) = some true := by decide
/-- J1: the Word pushed is the address of JSR's own last Word. -/
theorem test_jsr :
    afterStep { withCell (loadedWith []) 0x10 0x9010 with pc := 0x10 } (fun t => (t.sp, t.cell 0xFFFF, t.pc)) =
      some (0xFFFF, 0x10, 4) := by decide
/-- J5: `JSR POP`. -/
theorem test_jsr_pop :
    afterStep { withCell (loadedWith [0x6010]) 0xFFFE 0x200 with sp := 0xFFFE } (fun t => (t.pc, t.sp, t.cell 0xFFFE)) =
      some (0x200, 0xFFFE, 0) := by decide
/-- H4: the halt comes before the skip. -/
theorem test_halt :
    afterStep { loadedWith [0x0020] with skip := true } (fun t => (t.result, t.skip, t.pc)) = some (some .halted, true, 0) := by
  decide

/-! ### Skips, faults, parameters and the host -/

/-- S2, S4: a skip passes every word of the instruction and raises no fault. -/
theorem test_skip :
    afterStep { loadedWith [0x7D01, 0x1000, 0x1234] with skip := true } (fun t => (t.pc, t.skip, t.cell 0x1000)) =
      some (3, false, 0) ∧
    afterStep { loadedWith [0x6801] with skip := true } (fun t => (t.pc, t.sp)) = some (1, 0) := by decide
/-- S7: a skipped next word is not read. -/
theorem test_skip_reads_nothing :
    afterStep { withCell (withCell State.reset 0x8FFF 0x7811) 0x9000 0x41 with pc := 0x8FFF, skip := true }
      (fun t => (t.regs.b, t.cell 0x9000, t.pc)) = some (0, 0x41, 0x9001) := by decide
/-- F3: the next word is consumed, PC is left on it, and the fault mark is kept. -/
theorem test_fault_write_of_read_only :
    faultOfStep (loadedWith [0x01F1, 0x1234]) (fun t => (t.pc, t.faulted.isSome)) =
      some ({ kind := .writeOfReadOnly, code := 0x1F, word := 0x01F1, addr := 0 }, (1, true)) := by decide
/-- F4: the POP read is not undone. -/
theorem test_fault_keeps_pop :
    faultOfStep { withCell (loadedWith [0x6252]) 0xFFFE 3 with sp := 0xFFFE } (fun t => (t.sp, t.pc)) =
      some ({ kind := .writeOfReadOnly, code := 0x25, word := 0x6252, addr := 0 }, (0xFFFF, 0)) := by decide
/-- F6: A's read faults before any push. -/
theorem test_fault_read_of_push :
    faultOfStep (loadedWith [0x85A2]) (fun t => t.sp) =
      some ({ kind := .readOfWriteOnly, code := 0x1A, word := 0x85A2, addr := 0 }, 0) := by decide
/-- F8, F9: O before the faulting write, under the parameter only. -/
theorem test_fault_overflow_order :
    (faultOfStep { loadedWith [0x8652] with o := 0x77 } (fun t => t.o)).map Prod.snd = some 0x77 ∧
    (faultOfStep { loadedWith [0x8652] with o := 0x77, params := { Params.default with overflowWriteOrder := .overflowThenResult } }
      (fun t => t.o)).map Prod.snd = some 0 := by decide
/-- F7, F10. -/
theorem test_refusals :
    refusalOfStep { loadedWith [0x8411] with faulted := some { kind := .readOfWriteOnly, code := 0x1A, word := 0x6801, addr := 0 } } =
      some .faultMarkSet ∧
    refusalOfStep { loadedWith [0x8401] with loaded := false } = some .notLoaded := by decide
/-- P-1, P-2: `ADD POP, 1`. -/
theorem test_stack_rmw_mode :
    afterStep { withCell (withCell (loadedWith [0x8582]) 0xFFFE 5) 0xFFFF 9 with sp := 0xFFFE }
      (fun t => (t.cell 0xFFFE, t.cell 0xFFFF, t.sp)) = some (5, 6, 0) ∧
    afterStep { withCell (withCell (loadedWith [0x8582]) 0xFFFE 5) 0xFFFF 9 with
        sp := 0xFFFE, params := { Params.default with stackRmwMode := .resolveOnce } }
      (fun t => (t.cell 0xFFFE, t.cell 0xFFFF, t.sp)) = some (6, 9, 0xFFFF) := by decide
/-- P-6, P-7: `ADD O, 1`. -/
theorem test_overflow_write_order :
    afterStep { loadedWith [0x85D2] with o := 0xFFFF } (fun t => t.o) = some 1 ∧
    afterStep { loadedWith [0x85D2] with o := 0xFFFF, params := { Params.default with overflowWriteOrder := .overflowThenResult } }
      (fun t => t.o) = some 0 := by decide
/-- P-8, P-9. -/
theorem test_fetch_clears_keyboard :
    afterStep { withCell (loadedWith []) 0x9000 0x8401 with pc := 0x9000 } (fun t => (t.regs.a, t.pc, t.cell 0x9000)) =
      some (1, 0x9001, 0) ∧
    afterStep { withCell (loadedWith []) 0x9000 0x8401 with
        pc := 0x9000, params := { Params.default with fetchClearsKeyboard := false } }
      (fun t => (t.regs.a, t.pc, t.cell 0x9000)) = some (1, 0x9001, 0x8401) := by decide
/-- N1: the notifications of `SET [0x8000], 0x48`, in order. -/
theorem test_notifications :
    afterStep (loadedWith [0x7DE1, 0x8000, 0x0048]) (fun t => t.events) =
      some (regEvents .pc 1 ++ regEvents .pc 2 ++
        [.memWillChange 0x8000 0x48, .videoChanged 0x8000 0x48, .memDidChange 0x8000 0x48] ++ regEvents .pc 3) := by decide
/-- N4, N5, N6. -/
theorem test_load :
    (act (.host (.loadProgram [0xA861])) State.reset).events =
      [.memWillChange 0 0xA861, .memDidChange 0 0xA861, .valueLoaded 0 0xA861] ∧
    hostCall (.loadBinary [0xA8, 0x61]) State.reset = hostCall (.loadProgram [0xA861]) State.reset ∧
    hostCall (.loadBinary [0xA8]) State.reset = .failed := by decide
/-- E9, N8. -/
theorem test_host :
    hostCall (.readMemory 0x9000) (withCell State.reset 0x9000 0x41) =
      .ok (some 0x41) { State.reset with
        events := [.memWillChange 0x9000 0, .keyboardChanged 0x9000 0, .memDidChange 0x9000 0] } ∧
    hostCall (.writeRegister 8 1) State.reset = .refused .registerIndexOutOfRange := by decide
/-- The edges of the windows (R29). -/
theorem test_regions :
    [0x7FFF, 0x8000, 0x817F, 0x8180, 0x8FFF, 0x9000, 0x900F, 0x9010].map regionOf =
      [.plain, .video, .video, .plain, .plain, .keyboard, .keyboard, .plain] := by decide
/-- Memory stays canonical: storing 0 unlists a cell. -/
theorem test_memory_canonical :
    Mem.write (Mem.write (Mem.write [] 5 1) 3 2) 5 0 = [(3, 2)] ∧ Mem.write [] 5 0 = [] ∧ State.reset.mem.wf = true := by decide

/-! ### Witnesses: states and operands that meet the hypotheses of the statements -/

/-- A fault mark, for the witnesses that need one. -/
def someFault : FaultInfo := { kind := .readOfWriteOnly, code := 0x1A, word := 0x6801, addr := 0 }

/-- `State.reset` with the other value of each parameter. -/
def otherParams : State :=
  { State.reset with
    params := { stackRmwMode := .resolveOnce, overflowWriteOrder := .overflowThenResult, arithSemantics := .own,
                fetchClearsKeyboard := false } }

theorem witness_DecodeOfEncodeIsTheInstruction :
    (Instr.set .nextInd .next).wf = true ∧ [(0x1000 : Word), 0x20].length + 1 = (Instr.set .nextInd .next).length ∧
    (Instr.halt 0x3F 0x3F).wf = true ∧ ([] : List Word).length + 1 = (Instr.halt 0x3F 0x3F).length := by decide

theorem witness_EncodeOfDecodeIsTheWord :
    (Instr.jsr (.lit 4)).wf = true ∧ encode (Instr.jsr (.lit 4)) = 0x9010 := by decide

theorem witness_OpcodeZeroWordsAreJsrOrHalt : decodeWord 0xFC10 = .jsr (.lit 31) ∧ decodeWord 0x0010 = .jsr (.reg .a) := by
  decide

theorem witness_StepRunsTheDecodedInstruction :
    (Instr.set (.reg .i) (.lit 10)).wf = true ∧
      (loadedWith [0xA861]).cell (loadedWith [0xA861]).pc = encode (.set (.reg .i) (.lit 10)) ∧
      (loadedWith [0xA861]).loaded = true ∧ (loadedWith [0xA861]).faulted = none ∧ (loadedWith [0xA861]).skip = false := by
  decide

theorem witness_PendingSkipPassesOverOneInstruction :
    let s : State := { loadedWith [0x7DE1, 1, 2] with skip := true }
    (Instr.set .nextInd .next).wf = true ∧ (Instr.set .nextInd .next).isHalt = false ∧
      s.cell s.pc = encode (.set .nextInd .next) ∧ s.loaded = true ∧ s.faulted = none ∧ s.skip = true := by decide

theorem witness_HaltWordHaltsAndChangesNothing :
    (Instr.halt 0x02 0).wf = true ∧ (Instr.halt 0x02 0).isHalt = true ∧
      (loadedWith [0x20]).cell (loadedWith [0x20]).pc = encode (.halt 0x02 0) ∧ (loadedWith [0x20]).loaded = true ∧
      (loadedWith [0x20]).faulted = none := by decide

theorem witness_HaltRepeats : ∃ t, step State.reset = .next t ∧ t.result = some .halted := ⟨_, rfl, rfl⟩

theorem witness_StepIsRefusedExactlyWhenNotLoadedOrFaulted :
    ({ State.reset with loaded := false } : State).loaded = false ∧
      ({ State.reset with faulted := some someFault } : State).loaded = true ∧
      ({ State.reset with faulted := some someFault } : State).faulted ≠ none ∧
      State.reset.loaded = true ∧ State.reset.faulted = none := by decide

theorem witness_FaultsExactlyAtIllegalAccess :
    illegalAccess (.add .push (.lit 1)) = true ∧ illegalAccess (.set (.lit 5) .pop) = true ∧
      illegalAccess (.set .push (.lit 31)) = false ∧ illegalAccess (.ife (.lit 5) .next) = false := by decide

theorem witness_FaultReportsFirstAccessAndIsNotUndone :
    (∃ f, exec (.add (.lit 5) .pop) State.reset = .fault f) ∧ (∃ f, exec (.ife .pop .push) State.reset = .fault f) ∧
      (∃ f, exec (.add (.lit 5) .pop) otherParams = .fault f) ∧
      State.reset.params.overflowWriteOrder = .resultThenOverflow ∧ writesOverflow (.set (.lit 5) .pop) = false ∧
      (firstIllegal (.add .pop .push)).1 = .readOfWriteOnly :=
  ⟨⟨_, rfl⟩, ⟨_, rfl⟩, ⟨_, rfl⟩, rfl, rfl, rfl⟩

theorem witness_PcAdvancesByTheLength :
    (∃ t, exec (.set .nextInd .next) State.reset = .next t) ∧ jumps (.set .nextInd .next) = false ∧
      (Instr.set .nextInd .next).isHalt = false := ⟨⟨_, rfl⟩, by decide, by decide⟩

theorem witness_SkipStateMachine :
    (∃ t, step { loadedWith [0x8401] with skip := true } = .next t) ∧
      ∃ t, step (loadedWith [0x840C]) = .next t ∧ (loadedWith [0x840C]).skip = false ∧ t.skip = true :=
  ⟨⟨_, rfl⟩, _, rfl, rfl, rfl⟩

theorem witness_OnlyOperandAChangesARegister :
    ∃ t, step (loadedWith [0xA861]) = .next t ∧ t.regs.get .i ≠ (loadedWith [0xA861]).regs.get .i :=
  ⟨_, rfl, by decide⟩

theorem witness_OnlyOverflowWritersChangeO :
    (∃ t, step (loadedWith [0x95D1]) = .next t ∧ t.o ≠ (loadedWith [0x95D1]).o) ∧
      ∃ t, step (withReg (loadedWith [0x0403]) .b 1) = .next t ∧ t.o ≠ (withReg (loadedWith [0x0403]) .b 1).o :=
  ⟨⟨_, rfl, by decide⟩, _, rfl, by decide⟩

theorem witness_EventsNeverInfluenceExecution :
    (∃ t, exec (.set (.reg .a) (.lit 1)) State.reset = .next t) ∧
      ∃ info l, exec (.set (.reg .a) .push) State.reset = .fault (.invalidOperation info l) := ⟨⟨_, rfl⟩, _, _, rfl⟩

theorem witness_ParametersAreFixed : State.reset.loaded = true := rfl

theorem witness_FaultMarkIsClearedOnlyByALoad :
    ({ State.reset with faulted := some someFault } : State).faulted = some someFault ∧
      (loadedWith [0x6801]).faulted = none ∧ (act .executeNext (loadedWith [0x6801])).faulted = some someFault := by decide

theorem witness_StepKeepsTheInvariant :
    MachineInv (loadedWith [0xA861]) ∧ (∃ t, step (loadedWith [0xA861]) = .next t) ∧
      MachineInv (loadedWith [0x6801]) ∧ ∃ info left, step (loadedWith [0x6801]) = .fault (.invalidOperation info left) :=
  ⟨⟨by decide, by decide⟩, ⟨_, rfl⟩, ⟨by decide, by decide⟩, _, _, rfl⟩

theorem witness_EveryActionKeepsTheInvariant :
    MachineInv (loadedWith [0xA861]) ∧ (loadedWith [0xA861]).loaded = true ∧
      Reachable (act .executeNext (act (.host (.loadProgram [0xA861])) { State.reset with params := Params.default })) :=
  ⟨⟨by decide, by decide⟩, rfl, .act _ (.act _ (.reset _))⟩

theorem witness_ReadModifyWriteFrame :
    rmwOperands (.add .pop (.ind .b)) = some (.pop, .ind .b) ∧
      (∃ v s1, readBoth .pop (.ind .b) otherParams = .ok v s1 ∧ v.dst.writeAddr s1 ≠ some 0x9000) ∧
      (∃ t, exec (.add .pop (.ind .b)) otherParams = .next t) ∧
      rmwOperands (.mod (.reg .a) (.lit 3)) = some (.reg .a, .lit 3) ∧ writesOverflow (.mod (.reg .a) (.lit 3)) = false ∧
      (∃ v s1, readBoth (.reg .a) (.lit 3) State.reset = .ok v s1) ∧
      ∃ t, exec (.mod (.reg .a) (.lit 3)) State.reset = .next t :=
  ⟨rfl, ⟨_, _, rfl, by decide⟩, ⟨_, rfl⟩, rfl, rfl, ⟨_, _, rfl⟩, _, rfl⟩

theorem witness_SetFrame :
    (∃ v s1, readSource .push .pop State.reset = .ok v s1 ∧ v.2.writeAddr s1 ≠ some 0x9000) ∧
      (∃ t, exec (.set .push .pop) State.reset = .next t) ∧
      (∃ v s1, readSource .pop .next State.reset = .ok v s1) ∧ ∃ t, exec (.set .pop .next) State.reset = .next t :=
  ⟨⟨_, _, rfl, by decide⟩, ⟨_, rfl⟩, ⟨_, _, rfl⟩, _, rfl⟩

theorem witness_IfFrame :
    ifOperands (.ifb .nextInd .pop) = some (.nextInd, .pop) ∧ ∃ t, exec (.ifb .nextInd .pop) State.reset = .next t :=
  ⟨rfl, _, rfl⟩

theorem witness_JsrFrame :
    (∃ t, exec (.jsr .pop) State.reset = .next t) ∧ (0x9000 : Word) ≠ State.reset.sp + popMoves .pop - 1 :=
  ⟨⟨_, rfl⟩, by decide⟩

theorem witness_SetCopies :
    writable .push = true ∧ readable .next = true ∧ writable (.lit 31) = false ∧ readable .pop = true := by decide

/-- The clauses of the rules of ADD to SHR, MOD, AND, BOR and XOR: both reads allowed and the write allowed, with and
without O as operand A; PUSH as A; PUSH as B; a read-only operand A, under each order of the two writes. -/
theorem witness_read_modify_write_rules :
    readable .pop = true ∧ writable .pop = true ∧ Operand.pop ≠ .o ∧ readable .o = true ∧ writable .o = true ∧
      readable .next = true ∧ writable .next = false ∧ readable .push = false ∧
      State.reset.params.overflowWriteOrder = .resultThenOverflow ∧
      otherParams.params.overflowWriteOrder = .overflowThenResult := by decide

theorem witness_MathematicalRules :
    State.reset.params.arithSemantics = .mathematical ∧ otherParams.params.arithSemantics ≠ .mathematical := by decide

/-- The greatest values in the range of each clause. -/
theorem witness_OwnArithmeticAgreesOnSmallValues :
    (0xFFFF : Word).toNat * (0x8000 : Word).toNat < 2 ^ 31 ∧ (0x7FFF : Word).toNat < 0x8000 ∧
      ((31 : Word).toNat < 32 ∧ (0 : Word).toNat * 2 ^ (31 : Word).toNat < 2 ^ 31) ∧
      ((15 : Word).toNat < 32 ∧ (0xFFFF : Word).toNat * 2 ^ (15 : Word).toNat < 2 ^ 31) ∧
      ((31 : Word).toNat < 32 ∧ (0x7FFF : Word).toNat < 0x8000) := by decide

/-- The clauses of the rules of IFE to IFB, on values read from registers: each condition true and false. -/
theorem witness_if_rules :
    readable (.lit 5) = true ∧ readable .next = true ∧ (5 : Nat) = 5 ∧ (5 : Nat) ≠ 6 ∧ (0xFFFF : Nat) > 1 ∧ ¬(1 : Nat) > 1 ∧
      Nat.land 0xF0 0x10 ≠ 0 ∧ ¬Nat.land 0xF0 0x0F ≠ 0 := by decide

theorem witness_JsrPushesItsLastWordAndJumps : readable .nextInd = true ∧ readable (.lit 4) = true := by decide

theorem witness_ProcessAndNoOpConsumeTheNextWord :
    Operand.indNext .j = .indNext .j ∧ process (.indNext .j) (loadedWith [0, 7]) ≠ process .next (loadedWith [0, 7]) := by decide

theorem witness_RegisterModeReadsAndWritesTheRegister : Reg.b ≠ Reg.a := by decide

theorem witness_stack_modes :
    (0xFFFF : Word) ≠ State.reset.sp ∧ (0 : Word) ≠ State.reset.sp - 1 ∧ (0 : Word) ≠ State.reset.sp + 1 ∧
      State.reset.params.stackRmwMode = .perAccess ∧ otherParams.params.stackRmwMode = .resolveOnce := by decide

/-- The three modes; the sum of the second wraps. -/
theorem witness_MemoryModesReachTheirCell :
    (∃ g, Resolved.ind .b = .ind g ∧ (0x1234 : Word) = (withReg State.reset .b 0x1234).regs.get g) ∧
      (0 : Word).toNat = ((0xFFFF : Word).toNat + (1 : Word).toNat) % 0x10000 ∧
      Resolved.nextInd 0x9000 = .nextInd 0x9000 := ⟨⟨.b, by decide⟩, by decide⟩

/-- Both ends of each window and their neighbours. -/
theorem witness_MemoryWriteNotifiesInOrder :
    (0x8000 ≤ (0x8000 : Word).toNat ∧ (0x8000 : Word).toNat ≤ 0x817F) ∧
      (0x8000 ≤ (0x817F : Word).toNat ∧ (0x817F : Word).toNat ≤ 0x817F) ∧
      (0x9000 ≤ (0x9000 : Word).toNat ∧ (0x9000 : Word).toNat ≤ 0x900F) ∧
      (0x9000 ≤ (0x900F : Word).toNat ∧ (0x900F : Word).toNat ≤ 0x900F) ∧
      ([0x7FFF, 0x8180, 0x8FFF, 0x9010] : List Word).all (fun a =>
        !(decide (0x8000 ≤ a.toNat ∧ a.toNat ≤ 0x817F)) && !(decide (0x9000 ≤ a.toNat ∧ a.toNat ≤ 0x900F))) = true := by decide

theorem witness_MemoryReadConsumesKeys :
    (0x9000 ≤ (0x9000 : Word).toNat ∧ (0x9000 : Word).toNat ≤ 0x900F) ∧
      (0x9000 ≤ (0x900F : Word).toNat ∧ (0x900F : Word).toNat ≤ 0x900F) ∧
      ¬(0x9000 ≤ (0x8FFF : Word).toNat ∧ (0x8FFF : Word).toNat ≤ 0x900F) ∧
      ¬(0x9000 ≤ (0x9010 : Word).toNat ∧ (0x9010 : Word).toNat ≤ 0x900F) ∧ (0x9001 : Word) ≠ 0x9000 := by decide

/-- The longest program that is loaded, and the shortest that is not. -/
theorem witness_LoadProgramResetsAndPlaces :
    (List.replicate 0x10001 (0 : Word)).length > 0x10000 ∧ (List.replicate 0x10000 (0 : Word)).length ≤ 0x10000 := by
  rw [List.length_replicate, List.length_replicate]; omega

theorem witness_LoadBinaryIsBigEndian :
    ([0xA8] : List Byte).length % 2 = 1 ∧ ([0xA8, 0x61] : List Byte).length % 2 = 0 ∧ ([] : List Byte).length % 2 = 0 := by
  decide

theorem witness_HostRegisterRoundTrip : 7 < 8 ∧ 0 < 8 ∧ 0 ≠ 7 ∧ 8 ≤ 8 := by decide

theorem witness_HostPortsReachTheState : (0x8FFF : Word) ≠ 0x9000 := by decide

theorem witness_RunEndsAtAHaltWord : ∃ t, runFor 2 (loadedWith [0xA861]) = .halted t := ⟨_, rfl⟩

end Sys2Proof.Tests
end

section
/-! PROOFS. Family 00_scope.md: what every action of the core or the host keeps (R4, R6, R123). `Kept` is what one part
of a call keeps, `ActionLeaves` says once what an action can leave; the two obligations are read off it. -/

namespace Sys2Proof.Machine

/-! ### What every part of a call keeps -/

/-- From `s` to `t` the parameters and the result are the same, a loaded machine stays loaded, and memory stays in its
canonical form. -/
structure Kept (s t : State) : Prop where
  params : t.params = s.params
  result : t.result = s.result
  loaded : s.loaded = true → t.loaded = true
  wf : s.mem.wf = true → t.mem.wf = true

theorem Kept.refl (s : State) : Kept s s := ⟨rfl, rfl, id, id⟩

theorem Kept.trans {s t u : State} (h : Kept s t) (k : Kept t u) : Kept s u :=
  ⟨k.params.trans h.params, k.result.trans h.result, k.loaded ∘ h.loaded, k.wf ∘ h.wf⟩

theorem Quiet.kept {s t : State} (h : Quiet s t) (hwf : s.mem.wf = true → t.mem.wf = true) : Kept s t :=
  ⟨h.params, h.result, h.loaded.trans, hwf⟩

theorem Kept.memWrite (s : State) (a v : Word) : Kept s (s.memWrite a v) :=
  (Quiet.memWrite s a v).kept (State.memWrite_wf a v)

theorem Kept.afterRead (s : State) (a : Word) : Kept s (s.afterRead a) :=
  (Quiet.afterRead s a).kept (State.afterRead_wf a)

theorem Kept.incPc (s : State) : Kept s s.incPc := (Quiet.incPc s).kept id

theorem Kept.setPc (s : State) (v : Word) : Kept s (s.setPc v) := (Quiet.setPc s v).kept id

theorem Kept.setSp (s : State) (v : Word) : Kept s (s.setSp v) := (Quiet.setSp s v).kept id

theorem Kept.setO (s : State) (v : Word) : Kept s (s.setO v) := ⟨rfl, rfl, id, id⟩

theorem Kept.setReg (s : State) (r : Reg) (v : Word) : Kept s (s.setReg r v) := ⟨rfl, rfl, id, id⟩

theorem Kept.setSkip (s : State) (v : Bool) : Kept s (s.setSkip v) := ⟨rfl, rfl, id, id⟩

theorem fetch_kept (s : State) : Kept s (fetch s).2 := (fetch_quiet s).kept fetch_wf

theorem process_kept (op : Operand) (s : State) : Kept s (process op s).2 := (process_quiet op s).kept process_wf

/-! ### apply (R86), whether it goes on or raises -/

/-- The state in which a part of `apply` goes on or raises (R88). -/
def Access.state {α : Type} : Access α → State
  | .ok _ s => s
  | .raise _ _ s => s

@[simp] theorem Access.state_ok {α : Type} (v : α) (s : State) : (Access.ok v s).state = s := rfl

@[simp] theorem Access.state_raise {α : Type} (k : FaultKind) (c : Code) (s : State) :
    (Access.raise k c s : Access α).state = s := rfl

/-- A sequence keeps what both of its parts keep. -/
theorem Access.bind_kept {α β : Type} {m : Access α} {f : α → State → Access β} {s : State} (hm : Kept s m.state)
    (hf : ∀ v t, Kept t (f v t).state) : Kept s (m.bind f).state := by
  cases m with
  | ok v t => exact hm.trans (hf v t)
  | raise k c t => exact hm

theorem rd_kept (r : Resolved) (s : State) : Kept s (rd r s).state := by
  cases h : rd r s with
  | ok v t => exact (rd_quiet h).kept (rd_wf h)
  | raise k c t =>
    obtain ⟨-, -, -, rfl⟩ := rd_raise h
    exact Kept.refl t

theorem wr_kept (r : Resolved) (v : Word) (s : State) : Kept s (wr r v s).state := by
  cases h : wr r v s with
  | ok pw t =>
    obtain ⟨-, hloaded, -, hparams, hresult⟩ := wr_control h
    exact ⟨hparams, hresult, hloaded.trans, wr_wf h⟩
  | raise k c t =>
    obtain ⟨-, -, -, rfl⟩ := wr_raise h
    exact Kept.refl t

theorem readBoth_kept (a b : Operand) (s : State) : Kept s (readBoth a b s).state :=
  Access.bind_kept (((process_kept a s).trans (process_kept b _)).trans (rd_kept _ _)) fun _ s1 =>
    Access.bind_kept (rd_kept _ s1) fun _ s2 => Kept.refl s2

theorem readSource_kept (a b : Operand) (s : State) : Kept s (readSource a b s).state :=
  Access.bind_kept (((process_kept a s).trans (process_kept b _)).trans (rd_kept _ _)) fun _ s1 => Kept.refl s1

theorem writeResultAndOverflow_kept (dst : Resolved) (pair : Word × Word) (s : State) :
    Kept s (writeResultAndOverflow dst pair s).state := by
  unfold writeResultAndOverflow
  split
  · exact Access.bind_kept (wr_kept dst pair.1 s) fun _ s1 => Kept.setO s1 pair.2
  · exact (Kept.setO s pair.2).trans (wr_kept dst pair.1 _)

theorem applySet_kept (a b : Operand) (s : State) : Kept s (applySet a b s).state :=
  Access.bind_kept (readSource_kept a b s) fun _ s1 => wr_kept _ _ s1

theorem applyPlain_kept (f : Word → Word → Word) (a b : Operand) (s : State) : Kept s (applyPlain f a b s).state :=
  Access.bind_kept (readBoth_kept a b s) fun _ s1 => wr_kept _ _ s1

theorem applyWithOverflow_kept (f : ArithSemantics → Word → Word → Word × Word) (a b : Operand) (s : State) :
    Kept s (applyWithOverflow f a b s).state :=
  Access.bind_kept (readBoth_kept a b s) fun _ s1 => writeResultAndOverflow_kept _ _ s1

theorem applyIf_kept (cond : Word → Word → Bool) (a b : Operand) (s : State) : Kept s (applyIf cond a b s).state := by
  refine Access.bind_kept (readBoth_kept a b s) fun v s1 => ?_
  rw [Access.state_ok]
  split
  · exact Kept.refl s1
  · exact Kept.setSkip s1 true

theorem applyJsr_kept (a : Operand) (s : State) : Kept s (applyJsr a s).state :=
  Access.bind_kept ((process_kept a s).trans (rd_kept _ _)) fun _ s1 =>
    ((Kept.setSp s1 _).trans (Kept.memWrite _ _ _)).trans (Kept.setPc _ _)

theorem applied_kept (i : Instr) (s : State) : Kept s (applied i s).state := by
  cases i with
  | set a b => exact applySet_kept a b s
  | add a b | sub a b | mul a b | div a b | shl a b | shr a b =>
    unfold applied
    exact applyWithOverflow_kept _ a b s
  | mod a b | and a b | bor a b | xor a b => exact applyPlain_kept _ a b s
  | ife a b | ifn a b | ifg a b | ifb a b => exact applyIf_kept _ a b s
  | jsr a => exact applyJsr_kept a s
  | halt fa fb => exact Kept.refl s

/-! ### How an executed or a skipped instruction ends -/

/-- R85: an instruction that completes leaves what its `apply` kept, returning `Executed`. -/
theorem exec_next_kept {i : Instr} {s t : State} (hi : i.isHalt = false) (h : exec i s = .next t) :
    ∃ u, Kept s u ∧ t = u.returning .executed := by
  rw [exec_eq_finish i s hi, finish_eq_next] at h
  obtain ⟨pw, u, hu, rfl⟩ := h
  have hk : Kept s u := by simpa [hu] using applied_kept i s
  cases pw
  · exact ⟨u.incPc, hk.trans (Kept.incPc u), rfl⟩
  · exact ⟨u, hk, rfl⟩

/-- R88: an instruction that faults leaves what its `apply` kept, the fault mark apart. -/
theorem exec_fault_kept {i : Instr} {s left : State} {info : FaultInfo}
    (h : exec i s = .fault (.invalidOperation info left)) : Kept s left := by
  cases hi : i.isHalt with
  | true => cases i <;> simp [Instr.isHalt, exec_halt] at hi h
  | false =>
    rw [exec_eq_finish i s hi, finish_eq_fault] at h
    obtain ⟨k, c, u, hu, hf⟩ := h
    obtain ⟨-, rfl⟩ := Fault.invalidOperation.inj hf
    have hk : Kept s u := by simpa [hu] using applied_kept i s
    exact ⟨hk.params, hk.result, hk.loaded, hk.wf⟩

/-- R82: a halt word's `exec` returns `Halted` and nothing else. -/
theorem exec_next_of_isHalt {i : Instr} {s t : State} (hi : i.isHalt = true) (h : exec i s = .next t) :
    t = s.returning .halted := by
  cases i with
  | halt fa fb => simpa [exec_halt, eq_comm] using h
  | _ => simp [Instr.isHalt] at hi

/-- R83: a skipped instruction leaves a state of the same kind. -/
theorem skipStep_kept (i : Instr) (s : State) : ∃ u, Kept s u ∧ skipStep i s = u.returning .executed := by
  have hfold : Kept s (i.operands.foldl (fun t op => noOp op t) s) :=
    (foldl_noOp_quiet i.operands s).kept fun h => by rwa [(foldl_noOp_mem i.operands s).1]
  exact ⟨_, (hfold.trans (Kept.setSkip _ false)).trans (Kept.incPc _), rfl⟩

/-! ### What an action leaves -/

/-- R4, R88, R123: what an action can leave of `s`: `s` itself (a refused or failed call); what the parts of the call
keep, without a result (a port, or a fault) or with `Executed`; or the state after the fetch of a halt word. -/
inductive ActionLeaves (s : State) : State → Prop where
  | unchanged : ActionLeaves s s
  | unreturned {t : State} (h : Kept s.beginCall t) : ActionLeaves s t
  | executed {t : State} (h : Kept s.beginCall t) : ActionLeaves s (t.returning .executed)
  | halted (h : (decodeWord (s.cell s.pc)).isHalt = true) :
      ActionLeaves s ((fetch s.beginCall).2.returning .halted)

theorem step_next_leaves {s t : State} (h : step s = .next t) : ActionLeaves s t := by
  have hfetch : Kept s.beginCall (fetch s.beginCall).2 := fetch_kept s.beginCall
  obtain ⟨-, -, ⟨-, -, rfl⟩ | ⟨-, hexec⟩⟩ := step_eq_next h
  · obtain ⟨u, hu, e⟩ := skipStep_kept (decodeWord (s.cell s.pc)) (fetch s.beginCall).2
    rw [e]
    exact .executed (hfetch.trans hu)
  · cases hi : (decodeWord (s.cell s.pc)).isHalt with
    | true =>
      rw [exec_next_of_isHalt hi hexec]
      exact .halted hi
    | false =>
      obtain ⟨u, hu, rfl⟩ := exec_next_kept hi hexec
      exact .executed (hfetch.trans hu)

theorem step_fault_leaves {s left : State} {info : FaultInfo}
    (h : step s = .fault (.invalidOperation info left)) : ActionLeaves s left := by
  obtain ⟨-, -, hexec⟩ := step_eq_fault h
  exact .unreturned ((fetch_kept s.beginCall).trans (exec_fault_kept hexec))

/-- R129: writing a program's Words keeps what every write keeps. -/
theorem loadWords_kept (s : State) (a : Word) (ws : List Word) : Kept s (loadWords s a ws) := by
  induction ws generalizing s a with
  | nil => exact Kept.refl s
  | cons w ws ih =>
    have hload : Kept (s.memWrite a w)
        { s.memWrite a w with events := (s.memWrite a w).events ++ [.valueLoaded a w] } := ⟨rfl, rfl, id, id⟩
    exact ((Kept.memWrite s a w).trans hload).trans (ih _ _)

/-- R128: reset keeps the parameters and the loaded mark, and empties memory. -/
theorem doReset_kept (s : State) : Kept s s.doReset := ⟨rfl, rfl, id, fun _ => rfl⟩

theorem loadProgram_ok_kept {ws : List Word} {s t : State} {v : Option Word} (h : loadProgram ws s = .ok v t) :
    Kept s.beginCall t := by
  unfold loadProgram at h
  split at h
  · cases h
  · obtain ⟨-, rfl⟩ := PortReply.ok.inj h
    have hload := (doReset_kept s.beginCall).trans (loadWords_kept s.beginCall.doReset 0 ws)
    exact ⟨hload.params, hload.result, fun _ => rfl, hload.wf⟩

theorem loadBinary_ok_kept {bs : List Byte} {s t : State} {v : Option Word} (h : loadBinary bs s = .ok v t) :
    Kept s.beginCall t := by
  unfold loadBinary at h
  split at h
  · cases h
  · exact loadProgram_ok_kept h

theorem readRegister_ok_kept {i : Nat} {s t : State} {v : Option Word} (h : readRegister i s = .ok v t) :
    Kept s.beginCall t := by
  unfold readRegister at h
  split at h
  · obtain ⟨-, rfl⟩ := PortReply.ok.inj h
    exact Kept.refl _
  · cases h

theorem writeRegister_ok_kept {i : Nat} {w : Word} {s t : State} {v : Option Word}
    (h : writeRegister i w s = .ok v t) : Kept s.beginCall t := by
  unfold writeRegister at h
  split at h
  · obtain ⟨-, rfl⟩ := PortReply.ok.inj h
    exact Kept.setReg _ _ w
  · cases h

/-- R123: a port that is done keeps what every call keeps. -/
theorem hostCall_ok_kept {c : HostCall} {s t : State} {v : Option Word} (h : hostCall c s = .ok v t) :
    Kept s.beginCall t := by
  cases c with
  | loadProgram ws => exact loadProgram_ok_kept h
  | loadBinary bs => exact loadBinary_ok_kept h
  | readMemory a => obtain ⟨-, rfl⟩ := PortReply.ok.inj h; exact Kept.afterRead _ a
  | writeMemory a w => obtain ⟨-, rfl⟩ := PortReply.ok.inj h; exact Kept.memWrite _ a w
  | readRegister i => exact readRegister_ok_kept h
  | writeRegister i w => exact writeRegister_ok_kept h
  | getPC | getSP | getO => obtain ⟨-, rfl⟩ := PortReply.ok.inj h; exact Kept.refl _
  | setPC w => obtain ⟨-, rfl⟩ := PortReply.ok.inj h; exact Kept.setPc _ w
  | setSP w => obtain ⟨-, rfl⟩ := PortReply.ok.inj h; exact Kept.setSp _ w
  | setO w => obtain ⟨-, rfl⟩ := PortReply.ok.inj h; exact Kept.setO _ w

theorem act_leaves (a : Action) (s : State) : ActionLeaves s (act a s) := by
  cases a with
  | executeNext =>
    simp only [act]
    split
    · next h => exact step_next_leaves h
    · next h => exact step_fault_leaves h
    · exact .unchanged
  | host c =>
    simp only [act]
    split
    · next h => exact .unreturned (hostCall_ok_kept h)
    · exact .unchanged
    · exact .unchanged

/-! ### What follows for every action -/

theorem ActionLeaves.params {s t : State} (h : ActionLeaves s t) : t.params = s.params := by
  cases h with
  | unchanged => rfl
  | unreturned h => exact h.params
  | executed h => exact h.params
  | halted _ => exact (fetch_kept s.beginCall).params

theorem ActionLeaves.loaded {s t : State} (h : ActionLeaves s t) (hs : s.loaded = true) : t.loaded = true := by
  cases h with
  | unchanged => exact hs
  | unreturned h => exact h.loaded hs
  | executed h => exact h.loaded hs
  | halted _ => exact (fetch_kept s.beginCall).loaded hs

/-- R82: a halt word in the keyboard window may be cleared by its own fetch, and 0 is a halt word too. -/
theorem fetch_cell_pc_isHalt {s : State} (h : (decodeWord (s.cell s.pc)).isHalt = true) :
    (decodeWord ((fetch s).2.cell (fetch s).2.pc)).isHalt = true := by
  rw [fetch_pc, fetch_cell]
  split
  · rfl
  · exact h

theorem ActionLeaves.machineInv {s t : State} (h : ActionLeaves s t) (hs : Safety.MachineInv s) :
    Safety.MachineInv t := by
  cases h with
  | unchanged => exact hs
  | unreturned h => exact ⟨h.wf hs.1, fun e => by simp [h.result] at e⟩
  | executed h => exact ⟨h.wf hs.1, fun e => by simp at e⟩
  | halted h => exact ⟨(fetch_kept s.beginCall).wf hs.1, fun _ => fetch_cell_pc_isHalt (s := s.beginCall) h⟩

/-- The invariant at reset, under every choice of the parameters. -/
theorem machineInv_reset (p : Params) : Safety.MachineInv { State.reset with params := p } :=
  ⟨rfl, fun e => nomatch e⟩

end Sys2Proof.Machine

namespace Sys2Proof.Claims

open Sys2Proof.Machine Sys2Proof.Safety

/-- Settles O18: every state an action can leave has the parameters, and the loaded mark, of the state before. -/
theorem parametersAreFixed : Obligations.ParametersAreFixed :=
  fun a s => ⟨(act_leaves a s).params, (act_leaves a s).loaded⟩

/-- Settles O22: every state an action can leave meets the invariant; reachable states by induction on the actions. -/
theorem everyActionKeepsTheInvariant : Obligations.EveryActionKeepsTheInvariant := by
  have hact : ∀ a s, MachineInv s → s.loaded = true → MachineInv (act a s) ∧ (act a s).loaded = true :=
    fun a s hinv hl => ⟨(act_leaves a s).machineInv hinv, (act_leaves a s).loaded hl⟩
  refine ⟨hact, fun s hs => ?_⟩
  induction hs with
  | reset p => exact ⟨machineInv_reset p, rfl⟩
  | act a _ ih =>
    obtain ⟨hinv, hl⟩ := ih
    exact hact a _ hinv hl

end Sys2Proof.Claims
end

section
/-! PROOFS. Family 10_state.md: where `skip`, the general registers, O and the fault mark can change (R14, R21, R22,
R26), the state after reset (R27) and the host's register ports (R124). `Confined` says once what a completed step can
change of them; the whole-machine rules are read off it. -/

namespace Sys2Proof.Machine

open Sys2Proof.Claims

/-! ### What an instruction that completes can change -/

/-- The changes from `s` to `t` are confined to what `i` may write: a general register only as its destination, O only
as its destination or its overflow value, `skip` set only if it is an IF, and never the fault mark. -/
structure Confined (i : Instr) (s t : State) : Prop where
  regs : ∀ r, destination i ≠ some (.reg r) → t.regs.get r = s.regs.get r
  o : writesOverflow i = false → destination i ≠ some .o → t.o = s.o
  skip : t.skip = true → s.skip = true ∨ (ifOperands i).isSome = true
  faulted : t.faulted = s.faulted

section

variable {i : Instr} {s t u : State}

theorem Confined.trans (h : Confined i s t) (k : Confined i t u) : Confined i s u where
  regs r hr := (k.regs r hr).trans (h.regs r hr)
  o hw hd := (k.o hw hd).trans (h.o hw hd)
  skip hu := (k.skip hu).elim h.skip .inr
  faulted := k.faulted.trans h.faulted

theorem Quiet.confined (h : Quiet s t) : Confined i s t where
  regs _ _ := by rw [h.regs]
  o _ _ := h.o
  skip ht := .inl (h.skip.symm.trans ht)
  faulted := h.faulted

theorem beginCall_confined (i : Instr) (s : State) : Confined i s s.beginCall :=
  ⟨fun _ _ => rfl, fun _ _ => rfl, .inl, rfl⟩

theorem returning_confined (i : Instr) (s : State) (r : StepResult) : Confined i s (s.returning r) :=
  ⟨fun _ _ => rfl, fun _ _ => rfl, .inl, rfl⟩

theorem setO_confined (hw : writesOverflow i = true) (s : State) (v : Word) : Confined i s (s.setO v) :=
  ⟨fun _ _ => rfl, fun hf => absurd hw (by simp [hf]), .inl, rfl⟩

theorem setSkip_confined (hi : (ifOperands i).isSome = true) (s : State) (v : Bool) : Confined i s (s.setSkip v) :=
  ⟨fun _ _ => rfl, fun _ _ => rfl, fun _ => .inr hi, rfl⟩

/-- R65: a write through the destination. -/
theorem wr_confined {r : Resolved} {v : Word} {pw : Bool} (hd : destination i = some r.operand)
    (h : wr r v s = .ok pw t) : Confined i s t := by
  obtain ⟨hskip, -, hfaulted, -, -⟩ := wr_control h
  refine ⟨fun g hg => wr_reg_other h fun e => hg (by rw [hd, e]), fun _ hne => ?_, fun ht => .inl (hskip ▸ ht), hfaulted⟩
  rw [wr_o h, if_neg fun e : r.operand = .o => hne (by rw [hd, e])]

/-- R87: the two writes, in either order. -/
theorem writeResultAndOverflow_confined {dst : Resolved} {pair : Word × Word} {pw : Bool}
    (hd : destination i = some dst.operand) (hw : writesOverflow i = true)
    (h : writeResultAndOverflow dst pair s = .ok pw t) : Confined i s t := by
  obtain ⟨-, u, hwr, rfl⟩ | ⟨-, hwr⟩ := writeResultAndOverflow_eq_ok.1 h
  · exact (wr_confined hd hwr).trans (setO_confined hw u _)
  · exact (setO_confined hw s _).trans (wr_confined hd hwr)

/-! ### apply (R86) -/

variable {a b : Operand} {pw : Bool}

theorem applySet_confined (hd : destination i = some a) (h : applySet a b s = .ok pw t) : Confined i s t := by
  obtain ⟨v, s1, hread, hwr⟩ := applySet_eq_ok.1 h
  exact (readSource_quiet hread).confined.trans (wr_confined (by rw [hd, readSource_dst hread]) hwr)

theorem applyPlain_confined {f : Word → Word → Word} (hd : destination i = some a)
    (h : applyPlain f a b s = .ok pw t) : Confined i s t := by
  obtain ⟨v, s1, hread, hwr⟩ := applyPlain_eq_ok.1 h
  exact (readBoth_quiet hread).confined.trans (wr_confined (by rw [hd, readBoth_dst hread]) hwr)

theorem applyWithOverflow_confined {f : ArithSemantics → Word → Word → Word × Word} (hd : destination i = some a)
    (hw : writesOverflow i = true) (h : applyWithOverflow f a b s = .ok pw t) : Confined i s t := by
  obtain ⟨v, s1, hread, hwr⟩ := applyWithOverflow_eq_ok.1 h
  exact (readBoth_quiet hread).confined.trans
    (writeResultAndOverflow_confined (by rw [hd, readBoth_dst hread]) hw hwr)

theorem applyIf_confined {cond : Word → Word → Bool} (hi : (ifOperands i).isSome = true)
    (h : applyIf cond a b s = .ok pw t) : Confined i s t := by
  obtain ⟨v, s1, hread, -, rfl⟩ := applyIf_eq_ok.1 h
  refine (readBoth_quiet hread).confined.trans ?_
  split
  · exact (Quiet.refl s1).confined
  · exact setSkip_confined hi s1 true

/-- R106: JSR moves SP, stores one Word and jumps: nothing that `Confined` is about. -/
theorem applyJsr_quiet (h : applyJsr a s = .ok pw t) : Quiet s t := by
  obtain ⟨v, s1, hread, -, rfl⟩ := applyJsr_eq_ok.1 h
  have hpush : Quiet s1 ((s1.setSp (s1.sp - 1)).memWrite (s1.sp - 1) s1.pc) :=
    (Quiet.setSp s1 _).trans (Quiet.memWrite _ _ _)
  exact (((process_quiet a s).trans (rd_quiet hread)).trans hpush).trans (Quiet.setPc _ _)

theorem applied_confined (h : applied i s = .ok pw t) : Confined i s t := by
  cases i with
  | set a b => exact applySet_confined rfl h
  | add a b | sub a b | mul a b | div a b | shl a b | shr a b =>
    unfold applied at h
    exact applyWithOverflow_confined rfl rfl h
  | mod a b | and a b | bor a b | xor a b => exact applyPlain_confined rfl h
  | ife a b | ifn a b | ifg a b | ifb a b => exact applyIf_confined rfl h
  | jsr a => exact (applyJsr_quiet h).confined
  | halt fa fb =>
    obtain ⟨-, rfl⟩ := Access.ok.inj h
    exact (Quiet.refl s).confined

/-! ### The step -/

theorem exec_next_confined (h : exec i s = .next t) : Confined i s t := by
  cases hi : i.isHalt with
  | true =>
    rw [exec_next_of_isHalt hi h]
    exact returning_confined i s .halted
  | false =>
    rw [exec_eq_finish i s hi, finish_eq_next] at h
    obtain ⟨pw, u, hu, rfl⟩ := h
    have hend : Confined i u (if pw then u else u.incPc) := by
      split
      · exact (Quiet.refl u).confined
      · exact (Quiet.incPc u).confined
    exact ((applied_confined hu).trans hend).trans (returning_confined i _ .executed)

@[simp] theorem skipStep_skip (i : Instr) (s : State) : (skipStep i s).skip = false := rfl

/-- R83: a skipped instruction writes nothing; its step clears `skip`. -/
theorem skipStep_confined (i : Instr) (s : State) : Confined i s (skipStep i s) := by
  have hfold := foldl_noOp_quiet i.operands s
  exact ⟨fun r _ => congrArg (Regs.get · r) hfold.regs, fun _ _ => hfold.o, nofun, hfold.faulted⟩

/-- A completed step changes only what the instruction at PC may write. -/
theorem step_next_confined (h : step s = .next t) : Confined (decodeWord (s.cell s.pc)) s t := by
  have hfetch : Confined (decodeWord (s.cell s.pc)) s (fetch s.beginCall).2 :=
    (beginCall_confined _ s).trans (fetch_quiet s.beginCall).confined
  obtain ⟨-, -, ⟨-, -, rfl⟩ | ⟨-, hexec⟩⟩ := step_eq_next h
  · exact hfetch.trans (skipStep_confined _ _)
  · exact hfetch.trans (exec_next_confined hexec)

/-- R82, R83: a completed step with `skip` set keeps it set exactly at a halt word. -/
theorem step_next_skip_of_skip (h : step s = .next t) (hs : s.skip = true) :
    t.skip = (decodeWord (s.cell s.pc)).isHalt := by
  obtain ⟨-, -, ⟨-, hi, rfl⟩ | ⟨hrun, hexec⟩⟩ := step_eq_next h
  · rw [hi, skipStep_skip]
  · have hi : (decodeWord (s.cell s.pc)).isHalt = true := hrun.resolve_left (by simp [hs])
    rw [exec_next_of_isHalt hi hexec, hi, State.returning_skip, (fetch_quiet s.beginCall).skip, State.beginCall_skip, hs]

end

/-! ### The fault mark (R26, R115) -/

/-- R112: a faulting instruction leaves its information as the mark. -/
theorem exec_fault_faulted {i : Instr} {s left : State} {info : FaultInfo}
    (h : exec i s = .fault (.invalidOperation info left)) : left.faulted = some info := by
  cases hi : i.isHalt with
  | true => cases i <;> simp [Instr.isHalt, exec_halt] at hi h
  | false =>
    rw [exec_eq_finish i s hi, finish_eq_fault] at h
    obtain ⟨k, c, u, -, hf⟩ := h
    obtain ⟨rfl, rfl⟩ := Fault.invalidOperation.inj hf
    rfl

theorem step_fault_faulted {s left : State} {info : FaultInfo}
    (h : step s = .fault (.invalidOperation info left)) : left.faulted = some info :=
  exec_fault_faulted (step_eq_fault h).2.2

@[simp] theorem loadWords_faulted (s : State) (a : Word) (ws : List Word) : (loadWords s a ws).faulted = s.faulted := by
  induction ws generalizing s a with
  | nil => rfl
  | cons w ws ih => exact ih _ (a + 1)

/-- R128: a program load that is done leaves no fault mark. -/
theorem loadProgram_ok_faulted {ws : List Word} {s t : State} {v : Option Word} (h : loadProgram ws s = .ok v t) :
    t.faulted = none := by
  unfold loadProgram at h
  split at h
  · cases h
  · obtain ⟨-, rfl⟩ := PortReply.ok.inj h
    exact loadWords_faulted _ 0 ws

theorem loadBinary_ok_faulted {bs : List Byte} {s t : State} {v : Option Word} (h : loadBinary bs s = .ok v t) :
    t.faulted = none := by
  unfold loadBinary at h
  split at h
  · cases h
  · exact loadProgram_ok_faulted h

/-! ### The host's register ports (R124) -/

theorem readRegister_of_lt {i : Nat} (hi : i < 8) (s : State) :
    readRegister i s = .ok (some (s.regs.get (Reg.ofIndex i))) s.beginCall := if_pos hi

theorem readRegister_of_ge {i : Nat} (hi : 8 ≤ i) (s : State) :
    readRegister i s = .refused .registerIndexOutOfRange := if_neg (Nat.not_lt.2 hi)

theorem writeRegister_of_lt {i : Nat} (hi : i < 8) (v : Word) (s : State) :
    writeRegister i v s = .ok none (s.beginCall.setReg (Reg.ofIndex i) v) := if_pos hi

theorem writeRegister_of_ge {i : Nat} (hi : 8 ≤ i) (v : Word) (s : State) :
    writeRegister i v s = .refused .registerIndexOutOfRange := if_neg (Nat.not_lt.2 hi)

theorem hostCall_readRegister {i : Nat} (hi : i < 8) {s : State} {v : Word} (hv : s.regs.get (Reg.ofIndex i) = v) :
    hostCall (.readRegister i) s = .ok (some v) s.beginCall := hv ▸ readRegister_of_lt hi s

/-- R123: a port that is done keeps the fault mark, unless it is a load, which clears it. -/
theorem hostCall_ok_faulted {c : HostCall} {s t : State} {v : Option Word} (h : hostCall c s = .ok v t) :
    t.faulted = if c.isLoad then none else s.faulted := by
  cases c with
  | loadProgram ws => exact loadProgram_ok_faulted h
  | loadBinary bs => exact loadBinary_ok_faulted h
  | readMemory a => obtain ⟨-, rfl⟩ := PortReply.ok.inj h; exact (Quiet.afterRead s.beginCall a).faulted
  | readRegister i =>
    obtain hi | hi := Nat.lt_or_ge i 8
    · obtain ⟨-, rfl⟩ := PortReply.ok.inj ((readRegister_of_lt hi s).symm.trans h); rfl
    · cases (readRegister_of_ge hi s).symm.trans h
  | writeRegister i w =>
    obtain hi | hi := Nat.lt_or_ge i 8
    · obtain ⟨-, rfl⟩ := PortReply.ok.inj ((writeRegister_of_lt hi w s).symm.trans h); rfl
    · cases (writeRegister_of_ge hi w s).symm.trans h
  | writeMemory _ _ | getPC | setPC _ | getSP | setSP _ | getO | setO _ =>
    obtain ⟨-, rfl⟩ := PortReply.ok.inj h
    rfl

/-- R26, R115: a call of the host keeps the fault mark, or is a load and clears it. -/
theorem act_host_faulted (c : HostCall) (s : State) :
    (act (.host c) s).faulted = s.faulted ∨ c.isLoad = true ∧ (act (.host c) s).faulted = none := by
  simp only [act]
  split
  · next h =>
    rw [hostCall_ok_faulted h]
    cases c.isLoad <;> simp
  · exact .inl rfl
  · exact .inl rfl

/-- R26: a call of the core keeps the fault mark, or there was none and it faults, leaving its information. -/
theorem act_executeNext_faulted (s : State) :
    (act .executeNext s).faulted = s.faulted ∨ s.faulted = none ∧
      ∃ info, step s = .fault (.invalidOperation info (act .executeNext s)) ∧
        (act .executeNext s).faulted = some info := by
  simp only [act]
  split
  · next h => exact .inl (step_next_confined h).faulted
  · next info left h => exact .inr ⟨(step_eq_fault h).2.1, info, h, step_fault_faulted h⟩
  · exact .inl rfl

end Sys2Proof.Machine

namespace Sys2Proof

/-- R12: the register of an index 0 to 7 has that index. -/
theorem Reg.index_ofIndex {i : Nat} (hi : i < 8) : (Reg.ofIndex i).index = i := by
  interval_cases i <;> rfl

end Sys2Proof

namespace Sys2Proof.Claims

open Sys2Proof.Machine Sys2Proof.Safety

/-- Settles O14: with `skip` set the step skips or halts; with `skip` clear only an IF may set it. -/
theorem skipStateMachine : Obligations.SkipStateMachine :=
  fun _ _ h => ⟨step_next_skip_of_skip h, fun hs ht => ((step_next_confined h).skip ht).resolve_left (by simp [hs])⟩

/-- Settles O15: the register part of what a completed step can change. -/
theorem onlyOperandAChangesARegister : Obligations.OnlyOperandAChangesARegister :=
  fun _ _ r h hne => by_contra fun hd => hne ((step_next_confined h).regs r hd)

/-- Settles O16: the O part of what a completed step can change. -/
theorem onlyOverflowWritersChangeO : Obligations.OnlyOverflowWritersChangeO := by
  intro s t h hne
  by_contra hno
  obtain ⟨hw, hd⟩ := not_or.1 hno
  exact hne ((step_next_confined h).o (Bool.eq_false_of_not_eq_true hw) hd)

/-- Settles O19, from what a call of either agent does to the mark. -/
theorem faultMarkIsClearedOnlyByALoad : Obligations.FaultMarkIsClearedOnlyByALoad := by
  intro a s
  cases a with
  | executeNext =>
    obtain hkeep | ⟨hnone, info, hstep, hmark⟩ := act_executeNext_faulted s
    · exact ⟨fun _ hs => .inl (hkeep.trans hs), fun _ hs ht => by simp [hkeep, hs] at ht⟩
    · refine ⟨fun _ hs => by simp [hnone] at hs, fun info' _ ht => ?_⟩
      obtain rfl : info = info' := Option.some.inj (hmark.symm.trans ht)
      exact ⟨rfl, hstep⟩
  | host c =>
    obtain hkeep | ⟨hload, hclear⟩ := act_host_faulted c s
    · exact ⟨fun _ hs => .inl (hkeep.trans hs), fun _ hs ht => by simp [hkeep, hs] at ht⟩
    · exact ⟨fun _ _ => .inr ⟨c, rfl, hload, hclear⟩, fun _ _ ht => by simp [hclear] at ht⟩

/-- Settles O20: the invariant at reset, which the reachable states also start from. -/
theorem resetMeetsTheInvariant : Obligations.ResetMeetsTheInvariant := machineInv_reset

/-- Settles O55: the fields of the fixed state; its memory lists no cell. -/
theorem resetLeavesZeros : Obligations.ResetLeavesZeros := by
  refine ⟨fun r => ?_, rfl, rfl, rfl, rfl, rfl, fun _ => rfl⟩
  cases r <;> rfl

/-- Settles O58: a port's reply on each side of index 8, and reading back the register file after one write. -/
theorem hostRegisterRoundTrip : Obligations.HostRegisterRoundTrip := by
  intro i v s
  refine ⟨fun hi => ?_, fun hi => ?_⟩
  · have hself : (s.beginCall.setReg (Reg.ofIndex i) v).regs.get (Reg.ofIndex i) = v := Regs.get_set_same _ _ v
    have hother : ∀ j, j < 8 → j ≠ i →
        (s.beginCall.setReg (Reg.ofIndex i) v).regs.get (Reg.ofIndex j) = s.regs.get (Reg.ofIndex j) :=
      fun j hj hne => Regs.get_set_other _ v fun e => hne (by rw [← Reg.index_ofIndex hj, e, Reg.index_ofIndex hi])
    exact ⟨_, writeRegister_of_lt hi v s, ⟨_, hostCall_readRegister hi hself, rfl⟩,
      fun j hj hne => ⟨_, hostCall_readRegister hj (hother j hj hne)⟩, rfl, rfl, rfl, rfl, rfl, ⟨rfl, rfl, rfl⟩, rfl⟩
  · have hw : hostCall (.writeRegister i v) s = .refused .registerIndexOutOfRange := writeRegister_of_ge hi v s
    have hr : hostCall (.readRegister i) s = .refused .registerIndexOutOfRange := readRegister_of_ge hi s
    exact ⟨hw, hr, by simp only [act, hw], by simp only [act, hr]⟩

end Sys2Proof.Claims
end

section
/-! PROOFS. Family 20_memory.md: the windows of the address space (R29), what a write notifies (R33), what a read
consumes (R31), and that every step keeps the memory's canonical form (R28, R32). -/

namespace Sys2Proof.Machine

/-! ### The windows (R29) -/

/-- R29: the video window. -/
theorem regionOf_eq_video_iff (a : Word) : regionOf a = .video ↔ 0x8000 ≤ a.toNat ∧ a.toNat ≤ 0x817F := by
  unfold regionOf
  split
  · next h => exact iff_of_true rfl h
  · next h => exact iff_of_false (by split <;> nofun) h

/-- R29: the keyboard window, which lies above the video window. -/
theorem regionOf_eq_keyboard_iff (a : Word) : regionOf a = .keyboard ↔ 0x9000 ≤ a.toNat ∧ a.toNat ≤ 0x900F := by
  unfold regionOf
  split
  · next h => exact iff_of_false nofun (by omega)
  · split
    · next h => exact iff_of_true rfl h
    · next h => exact iff_of_false nofun h

/-- R36: every other address is plain memory. -/
theorem regionOf_eq_plain {a : Word} (hv : ¬(0x8000 ≤ a.toNat ∧ a.toNat ≤ 0x817F))
    (hk : ¬(0x9000 ≤ a.toNat ∧ a.toNat ≤ 0x900F)) : regionOf a = .plain := by
  cases h : regionOf a with
  | plain => rfl
  | video => exact absurd ((regionOf_eq_video_iff a).1 h) hv
  | keyboard => exact absurd ((regionOf_eq_keyboard_iff a).1 h) hk

/-! ### The notifications of a write (R33) -/

theorem writeEvents_of_video {a : Word} (h : regionOf a = .video) (v : Word) :
    writeEvents a v = [.memWillChange a v, .videoChanged a v, .memDidChange a v] := by
  simp [writeEvents, windowEvents, h]

theorem writeEvents_of_keyboard {a : Word} (h : regionOf a = .keyboard) (v : Word) :
    writeEvents a v = [.memWillChange a v, .keyboardChanged a v, .memDidChange a v] := by
  simp [writeEvents, windowEvents, h]

theorem writeEvents_of_plain {a : Word} (h : regionOf a = .plain) (v : Word) :
    writeEvents a v = [.memWillChange a v, .memDidChange a v] := by
  simp [writeEvents, windowEvents, h]

/-! ### The read of a key (R31) -/

/-- R31: a read in the keyboard window writes 0 there; `State.afterRead_plain` is the other case. -/
theorem State.afterRead_keyboard (s : State) {a : Word} (h : regionOf a = .keyboard) :
    s.afterRead a = s.memWrite a 0 := by
  simp [State.afterRead, h]

end Sys2Proof.Machine

namespace Sys2Proof.Claims

open Sys2Proof.Machine

/-- Settles O21: a completed or faulting step leaves one of the states an action can leave, and each of them meets
the invariant. -/
theorem stepKeepsTheInvariant : Obligations.StepKeepsTheInvariant :=
  fun _ hinv => ⟨fun _ h => (step_next_leaves h).machineInv hinv, fun _ _ h => (step_fault_leaves h).machineInv hinv⟩

/-- Settles O53: a write appends its `writeEvents`, which the window of the address decides. -/
theorem memoryWriteNotifiesInOrder : Obligations.MemoryWriteNotifiesInOrder := by
  intro s a v
  refine ⟨fun hv => ?_, fun hk => ?_, fun hv hk => ?_⟩
  · rw [State.memWrite_events, writeEvents_of_video ((regionOf_eq_video_iff a).2 hv)]
  · rw [State.memWrite_events, writeEvents_of_keyboard ((regionOf_eq_keyboard_iff a).2 hk)]
  · rw [State.memWrite_events, writeEvents_of_plain (regionOf_eq_plain hv hk)]

/-- Settles O54: the state after a read is that of a write of 0 in the keyboard window, and the same elsewhere. -/
theorem memoryReadConsumesKeys : Obligations.MemoryReadConsumesKeys := by
  intro s a
  refine ⟨rfl, fun hk => ?_, fun hk => ?_⟩
  · rw [State.memRead_snd, State.afterRead_keyboard s ((regionOf_eq_keyboard_iff a).2 hk)]
    exact ⟨rfl, State.cell_memWrite_same s a 0, fun x hx => by rw [State.cell_memWrite, if_neg hx]⟩
  · exact State.afterRead_plain s a (mt (regionOf_eq_keyboard_iff a).1 hk)

end Sys2Proof.Claims
end

section
/-! PROOFS. Family 30_encoding.md: words and well-formed instructions correspond one to one (R53, R56).
`decodeWord_eq_iff` says it once; the opcode-0 words (R52) and the length (R49) are read off it. -/

namespace Sys2Proof

/-! ### A word and its fields (R47) -/

/-- R47: the packing of three fields is the one word that has them. -/
theorem packWord_eq_iff {fb fa : Code} {op : BitVec 4} {w : Word} :
    packWord fb fa op = w ↔ fieldB w = fb ∧ fieldA w = fa ∧ fieldOp w = op := by
  constructor
  · rintro rfl
    simp
  · rintro ⟨rfl, rfl, rfl⟩
    exact packWord_fields w

theorem fieldOp_eq_zero_iff (w : Word) : fieldOp w = 0 ↔ w.toNat % 0x10 = 0 := by
  rw [← BitVec.toNat_inj, fieldOp_toNat]
  rfl

theorem fieldA_eq_jsrMarker_iff (w : Word) : fieldA w = jsrMarker ↔ w.toNat / 0x10 % 0x40 = 1 := by
  rw [← BitVec.toNat_inj, fieldA_toNat]
  rfl

/-! ### Words and instructions, one to one (R53, R56) -/

theorem decodeWord_encode {i : Instr} (h : i.wf = true) : decodeWord (encode i) = i := by
  cases i with
  | halt fa fb =>
    have hfa : fa ≠ jsrMarker := by simpa [Instr.wf] using h
    simpa [decodeWord, encode] using hfa
  | _ => simp [decodeWord, encode]

theorem decodeWord_wf (w : Word) : (decodeWord w).wf = true := by
  unfold decodeWord
  dsimp only
  split
  case h_16 =>
    split
    · rfl
    · next hfa => simpa [Instr.wf] using hfa
  all_goals rfl

theorem encode_decodeWord (w : Word) : encode (decodeWord w) = w := by
  have hlt : (fieldOp w).toNat < 16 := (fieldOp w).isLt
  unfold decodeWord
  dsimp only
  split
  case h_16 =>
    have hzero : (fieldOp w).toNat = 0 := by grind
    have hop : fieldOp w = 0 := BitVec.eq_of_toNat_eq hzero
    split
    · next hfa => simp [encode, packWord_eq_iff, hfa, hop]
    · simp [encode, packWord_eq_iff, hop]
  all_goals
    next hop => simpa [encode, packWord_eq_iff] using BitVec.eq_of_toNat_eq hop

/-- R53, R56: a Word decodes to the one well-formed instruction whose word it is. -/
theorem decodeWord_eq_iff {w : Word} {i : Instr} : decodeWord w = i ↔ i.wf = true ∧ encode i = w := by
  constructor
  · rintro rfl
    exact ⟨decodeWord_wf w, encode_decodeWord w⟩
  · rintro ⟨hwf, rfl⟩
    exact decodeWord_encode hwf

/-! ### The opcode-0 words (R52) -/

theorem decodeWord_eq_jsr_iff {w : Word} {a : Operand} :
    decodeWord w = .jsr a ↔ fieldOp w = 0 ∧ fieldA w = jsrMarker ∧ fieldB w = encodeOperand a := by
  simp only [decodeWord_eq_iff, Instr.wf, encode, packWord_eq_iff]
  tauto

theorem decodeWord_eq_halt_iff {w : Word} {fa fb : Code} :
    decodeWord w = .halt fa fb ↔ fieldOp w = 0 ∧ fieldA w ≠ jsrMarker ∧ fieldA w = fa ∧ fieldB w = fb := by
  simp only [decodeWord_eq_iff, Instr.wf, encode, packWord_eq_iff, bne_iff_ne]
  constructor
  · rintro ⟨hfa, rfl, rfl, hop⟩
    exact ⟨hop, hfa, rfl, rfl⟩
  · rintro ⟨hop, hfa, rfl, rfl⟩
    exact ⟨hfa, rfl, rfl, hop⟩

theorem Instr.isHalt_iff (i : Instr) : i.isHalt = true ↔ ∃ fa fb, i = .halt fa fb := by
  cases i <;> simp [Instr.isHalt]

theorem decodeWord_isHalt_iff (w : Word) :
    (decodeWord w).isHalt = true ↔ fieldOp w = 0 ∧ fieldA w ≠ jsrMarker := by
  simp [Instr.isHalt_iff, decodeWord_eq_halt_iff]

theorem exists_decodeWord_eq_jsr_iff (w : Word) :
    (∃ a, decodeWord w = .jsr a) ↔ fieldOp w = 0 ∧ fieldA w = jsrMarker := by
  simp only [decodeWord_eq_jsr_iff]
  constructor
  · rintro ⟨a, hop, hfa, -⟩
    exact ⟨hop, hfa⟩
  · rintro ⟨hop, hfa⟩
    exact ⟨decodeOperand (fieldB w), hop, hfa, (encodeOperand_decodeOperand _).symm⟩

/-! ### The length (R49) and the next words (R46) -/

theorem codeNextWords_le_one (c : Code) : codeNextWords c ≤ 1 := by
  unfold codeNextWords
  split <;> omega

theorem lengthOfWord_eq_length (w : Word) : lengthOfWord w = (decodeWord w).length := by
  have h := lengthOfWord_encode (decodeWord w) (decodeWord_wf w)
  rwa [encode_decodeWord] at h

theorem one_le_lengthOfWord (w : Word) : 1 ≤ lengthOfWord w := by
  rw [lengthOfWord_eq_length]
  exact Nat.le_add_right 1 _

theorem lengthOfWord_le_three (w : Word) : lengthOfWord w ≤ 3 := by
  have hA := codeNextWords_le_one (fieldA w)
  have hB := codeNextWords_le_one (fieldB w)
  unfold lengthOfWord
  split
  · omega
  · split <;> omega

/-- R46: a Word followed by as many Words as its length calls for decodes, and leaves what follows them. -/
theorem decode_cons_append {w : Word} {next : List Word} (h : next.length + 1 = lengthOfWord w) (rest : List Word) :
    decode (w :: (next ++ rest)) = .ok { instr := decodeWord w, next := next, rest := rest } := by
  simp [decode, ← h]

end Sys2Proof

namespace Sys2Proof.Claims

/-- Settles O1: the word decodes to its instruction, whose length says how many of the Words after it are its own. -/
theorem decodeOfEncodeIsTheInstruction : Obligations.DecodeOfEncodeIsTheInstruction := by
  intro i hwf
  refine ⟨decodeWord_encode hwf, fun next rest hlen => ?_⟩
  have hword : next.length + 1 = lengthOfWord (encode i) := by rw [lengthOfWord_encode i hwf, hlen]
  have h := decode_cons_append hword rest
  rwa [decodeWord_encode hwf] at h

/-- Settles O2: the two directions of `decodeWord_eq_iff`. -/
theorem encodeOfDecodeIsTheWord : Obligations.EncodeOfDecodeIsTheWord :=
  fun w => ⟨decodeWord_wf w, encode_decodeWord w, fun _ hwf hi => (decodeWord_eq_iff.2 ⟨hwf, hi⟩).symm⟩

/-- Settles O3: which opcode-0 words halt and which are JSR, with the fields as numbers. -/
theorem opcodeZeroWordsAreJsrOrHalt : Obligations.OpcodeZeroWordsAreJsrOrHalt := by
  intro w
  rw [← fieldOp_eq_zero_iff, ne_eq, ← fieldA_eq_jsrMarker_iff]
  refine ⟨decodeWord_isHalt_iff w, exists_decodeWord_eq_jsr_iff w, fun a ha => ?_⟩
  obtain ⟨-, -, hfb⟩ := decodeWord_eq_jsr_iff.1 ha
  rw [← hfb, fieldB_toNat]

/-- Settles O4: the length law of encoded words, at the word of the decoded instruction. -/
theorem lengthIsToldByTheFirstWord : Obligations.LengthIsToldByTheFirstWord :=
  fun w => ⟨lengthOfWord_eq_length w, one_le_lengthOfWord w, lengthOfWord_le_three w⟩

/-- Settles O5: the words and codes of the tables are fixed, so `decodeWord` is evaluated on each; the literals of JSR
are all those of R50. -/
theorem specWordsDecode : Obligations.SpecWordsDecode := by
  unfold Obligations.SpecWordsDecode
  decide

end Sys2Proof.Claims
end

section
/-! PROOFS. Family 40_operands.md: the four operations of every addressing mode (R61 to R78). The laws of `process`,
`rd` and `wr` say what each leaves; here their cells are stated with `afterReading`, and the modes that reach one
memory cell are treated together, POP and PUSH apart because they move SP. -/

namespace Sys2Proof.Machine

open Sys2Proof.Claims

/-! ### The cells that reads leave (R31, R63) -/

theorem process_cell_eq_afterReading (op : Operand) (s : State) (x : Word) :
    (process op s).2.cell x = afterReading (nextWordCells op s) s x := by
  rw [process_cell, afterReading, nextWordCells]
  by_cases hnw : op.nextWords = 1 <;> simp [hnw, and_comm]

@[simp] theorem noOp_cell (op : Operand) (s : State) (x : Word) : (noOp op s).cell x = s.cell x := by
  simp [State.cell]

theorem rd_cell_eq_afterReading {r : Resolved} {s t : State} {v : Word × Resolved} (h : rd r s = .ok v t) (x : Word) :
    t.cell x = afterReading (r.readAddr s).toList s x := by
  simp [rd_cell h, afterReading, and_comm]

/-! ### The captures of process (R62) -/

/-- R62: the register is captured after the next word is read, which leaves it as it was. -/
theorem process_indNext_fst (r : Reg) (s : State) :
    (process (.indNext r) s).1 = .indNext r (s.cell (s.pc + 1)) (s.regs.get r) := by
  simp [process, consumeNext_eq]

/-! ### The modes that reach one memory cell (R67, R68, R70, R75) -/

theorem State.cell_memWrite_other (s : State) {a x : Word} (v : Word) (h : x ≠ a) :
    (s.memWrite a v).cell x = s.cell x := by
  rw [State.cell_memWrite, if_neg h]

section

variable {m : Resolved} {a : Word} {s : State}

/-- A mode other than POP that reads a cell also writes it; PUSH reads none. -/
theorem access_of_readAddr (ha : m.readAddr s = some a) (hm : m.operand ≠ .pop) (v : Word) :
    rd m s = .ok (s.cell a, m) (s.afterRead a) ∧ wr m v s = .ok false (s.memWrite a v) := by
  cases m with
  | ind g | indNext g nw cr | peek | nextInd nw =>
    obtain rfl := Option.some.inj ha
    exact ⟨rfl, rfl⟩
  | pop sa => exact absurd rfl hm
  | reg _ | push | sp | pc | o | next _ | lit _ => cases ha

/-- R64, R65: both accesses of such a mode go to its one cell and leave SP. -/
theorem rd_and_wr_of_readAddr (ha : m.readAddr s = some a) (hm : m.operand ≠ .pop) (v : Word) :
    (∃ t, rd m s = .ok (s.cell a, m) t ∧ t.sp = s.sp ∧ ∀ x, t.cell x = afterReading [a] s x) ∧
    ∃ t, wr m v s = .ok false t ∧ t.sp = s.sp ∧ t.cell a = v ∧ ∀ x, x ≠ a → t.cell x = s.cell x := by
  obtain ⟨hrd, hwr⟩ := access_of_readAddr ha hm v
  refine ⟨⟨_, hrd, rd_sp_of_ne_pop hrd hm, fun x => ?_⟩,
    _, hwr, rfl, State.cell_memWrite_same s a v, fun _ => State.cell_memWrite_other s v⟩
  rw [rd_cell_eq_afterReading hrd, ha, Option.toList_some]

end

/-! ### POP (R69, R78) -/

@[simp] theorem popAddr_none (s : State) : popAddr none s = s.sp := by
  unfold popAddr
  split <;> rfl

@[simp] theorem popMove_none (s : State) : popMove none s = s.setSp (s.sp + 1) := by
  unfold popMove
  split <;> rfl

section

variable {s : State}

theorem popAddr_of_perAccess (sa : Option Word) (h : s.params.stackRmwMode = .perAccess) : popAddr sa s = s.sp := by
  simp [popAddr, h]

theorem popMove_of_perAccess (sa : Option Word) (h : s.params.stackRmwMode = .perAccess) :
    popMove sa s = s.setSp (s.sp + 1) := by
  simp [popMove, h]

theorem popAddr_some_of_resolveOnce (a : Word) (h : s.params.stackRmwMode = .resolveOnce) :
    popAddr (some a) s = a := by
  simp [popAddr, h]

theorem popMove_some_of_resolveOnce (a : Word) (h : s.params.stackRmwMode = .resolveOnce) :
    popMove (some a) s = s := by
  simp [popMove, h]

end

/-- R69: the write of POP stores at the access's address, and moves SP as `popMove` does. -/
theorem popWrite_stores {sa : Option Word} {s : State} {a : Word} (v : Word) (ha : popAddr sa s = a) :
    (popWrite sa v s).sp = (popMove sa s).sp ∧ (popWrite sa v s).cell a = v ∧
      ∀ x, x ≠ a → (popWrite sa v s).cell x = s.cell x := by
  subst ha
  refine ⟨wr_sp (r := .pop sa) rfl, ?_, fun x hx => ?_⟩
  · rw [popWrite, popMove_cell, State.cell_memWrite_same]
  · rw [popWrite, popMove_cell, State.cell_memWrite_other s v hx]

/-- R69: the first read of POP resolves its address, the one at SP. -/
theorem rd_pop_none (s : State) : ∃ t, rd (.pop none) s = .ok (s.cell s.sp, .pop (some s.sp)) t :=
  ⟨rdState (.pop none) s, rd_eq_ok.2 ⟨rfl, by simp [rdValue, rdDst, Resolved.readAddr], rfl⟩⟩

end Sys2Proof.Machine

namespace Sys2Proof

/-! ### Literals (R50, R77) -/

theorem encodeOperand_lit_toNat (l : BitVec 5) : (encodeOperand (.lit l)).toNat = 0x20 + l.toNat := by
  have hlt := l.isLt
  simp only [encodeOperand, BitVec.toNat_ofNat]
  omega

end Sys2Proof

namespace Sys2Proof.Claims

open Sys2Proof.Machine

/-- Settles O45: the laws of `process` and `no_op`, which keep what a `Quiet` part of a step keeps. -/
theorem processAndNoOpConsumeTheNextWord : Obligations.ProcessAndNoOpConsumeTheNextWord := by
  intro op s
  have hp := process_quiet op s
  have hn := noOp_quiet op s
  refine ⟨process_operand op s, process_pc op s, noOp_pc op s, ?indNext, ?nextInd, ?next, hp.regs, process_sp op s,
    hp.o, hp.skip, hn.regs, noOp_sp op s, hn.o, hn.skip, process_cell_eq_afterReading op s,
    noOp_cell op s⟩
  case indNext =>
    rintro r rfl
    exact process_indNext_fst r s
  case nextInd | next =>
    rintro rfl
    rfl

/-- Settles O46: reading back the register file after one write. -/
theorem registerModeReadsAndWritesTheRegister : Obligations.RegisterModeReadsAndWritesTheRegister :=
  fun r v s => ⟨rfl, rfl, rfl, _, rfl, Regs.get_set_same s.regs r v, fun _ => Regs.get_set_other s.regs v,
    rfl, rfl, rfl, rfl⟩

/-- Settles O47: PEEK is a mode of one cell, the one at SP. -/
theorem peekReadsAndWritesTheTopOfStack : Obligations.PeekReadsAndWritesTheTopOfStack :=
  fun v _ => ⟨rfl, rfl, rd_and_wr_of_readAddr (m := .peek) rfl nofun v⟩

/-- Settles O48: a write of memory after the decrement of SP. -/
theorem pushDecrementsThenStores : Obligations.PushDecrementsThenStores := by
  intro v s
  refine ⟨rfl, rfl, rd_push s, _, rfl, ?_, State.cell_memWrite_same _ _ v, fun x => State.cell_memWrite_other _ v⟩
  rw [State.memWrite_sp, State.setSp_sp, BitVec.toNat_sub, Nat.add_comm]
  rfl

/-- Settles O49: each access of POP, with the address and the move of SP that its mode gives it. -/
theorem popAccessesThenIncrements : Obligations.PopAccessesThenIncrements := by
  intro v s
  obtain ⟨t, hrd⟩ := rd_pop_none s
  have hsp : t.sp = s.sp + 1 := rd_sp_pop hrd
  have hparams : t.params = s.params := (rd_quiet hrd).params
  refine ⟨rfl, rfl, ⟨_, rfl, ?first⟩, t, hrd, hsp, fun x => ?cells, _, rfl, fun hmode => ?perAccess,
    fun hmode => ?resolveOnce⟩
  case first =>
    obtain ⟨hmove, hcell, hframe⟩ := popWrite_stores v (popAddr_none s)
    rw [popMove_none, State.setSp_sp] at hmove
    exact ⟨hcell, hmove, hframe⟩
  case cells =>
    rw [rd_cell_eq_afterReading hrd, Resolved.readAddr, popAddr_none, Option.toList_some]
  case perAccess =>
    rw [← hparams] at hmode
    obtain ⟨hmove, hcell, hframe⟩ := popWrite_stores v (popAddr_of_perAccess (some s.sp) hmode)
    rw [popMove_of_perAccess _ hmode, State.setSp_sp, hsp, BitVec.add_assoc] at hmove
    rw [hsp] at hcell hframe
    exact ⟨hmove, hcell, hframe⟩
  case resolveOnce =>
    rw [← hparams] at hmode
    obtain ⟨hmove, hcell, hframe⟩ := popWrite_stores v (popAddr_some_of_resolveOnce s.sp hmode)
    rw [popMove_some_of_resolveOnce _ hmode, hsp] at hmove
    exact ⟨hmove, hcell, hframe⟩

/-- Settles O50: the three modes are modes of one cell; the sum of the second wraps as the addition of Words does. -/
theorem memoryModesReachTheirCell : Obligations.MemoryModesReachTheirCell := by
  rintro m a v s (⟨g, rfl, rfl⟩ | rfl | ⟨g, nw, cr, rfl, hsum⟩)
  · exact rd_and_wr_of_readAddr (m := .ind g) rfl nofun v
  · exact rd_and_wr_of_readAddr (m := .nextInd a) rfl nofun v
  · obtain rfl : nw + cr = a := BitVec.eq_of_toNat_eq ((BitVec.toNat_add nw cr).trans hsum.symm)
    exact rd_and_wr_of_readAddr (m := .indNext g nw cr) rfl nofun v

/-- Settles O51: a literal's value and code are both read off its five bits. -/
theorem immediatesAreReadOnly : Obligations.ImmediatesAreReadOnly := by
  intro nw v l s
  have hlt := l.isLt
  have hcode := encodeOperand_lit_toNat l
  have hvalue : (l.setWidth 16).toNat = l.toNat := by
    rw [BitVec.toNat_setWidth]
    omega
  exact ⟨⟨rfl, process_pc .next s, noOp_pc .next s⟩, rfl, wr_raise_of_not_writable (.next nw) v s rfl, rfl, rfl,
    ⟨l.setWidth 16, rfl, by omega, by omega⟩, wr_raise_of_not_writable (.lit l) v s rfl, by omega⟩

/-- Settles O52: the modes of SP, PC and O are the reads and writes of those fields. -/
theorem specialRegisterModes : Obligations.SpecialRegisterModes :=
  fun _ _ => ⟨rfl, rfl, rfl, ⟨_, rfl, rfl, rfl, rfl, rfl, rfl⟩, ⟨_, rfl, rfl, rfl, rfl, rfl, rfl⟩,
    _, rfl, rfl, rfl, rfl, rfl, rfl⟩

end Sys2Proof.Claims
end

section
/-! PROOFS. Family 41_cycle.md: the call of `execute_next` (R80 to R83), where PC goes (R85), what an instruction that
reads operand A and writes it back, and an IF, leave unchanged (R86, R87), and the end of a run (R89). `WroteThrough`
says once what writing through operand A can change. -/

namespace Sys2Proof.Machine

open Sys2Proof.Claims

theorem Quiet.keepsControl {s t : State} (h : Quiet s t) : KeepsControl s t := ⟨h.loaded, h.faulted, h.params⟩

theorem keepsControl_trans {s t u : State} (h : KeepsControl s t) (k : KeepsControl t u) : KeepsControl s u := by
  obtain ⟨hloaded, hfaulted, hparams⟩ := h
  obtain ⟨kloaded, kfaulted, kparams⟩ := k
  exact ⟨kloaded.trans hloaded, kfaulted.trans hfaulted, kparams.trans hparams⟩

/-! ### The step at a given word (R80, R81) -/

/-- R81: the cells the fetch of a call leaves. -/
theorem fetch_beginCall_cell (s : State) (x : Word) :
    (fetch s.beginCall).2.cell x =
      if s.params.fetchClearsKeyboard = true then afterReading [s.pc] s x else s.cell x := by
  rw [fetch_cell]
  by_cases h : s.params.fetchClearsKeyboard = true <;> simp [h, afterReading, and_comm]

section

variable {i : Instr} {s t : State}

/-- R80: a ready step at the word of `i` skips or executes `i` after the fetch. -/
theorem step_of_decodeWord (hl : s.loaded = true) (hf : s.faulted = none) (hi : decodeWord (s.cell s.pc) = i) :
    step s = if s.skip && !i.isHalt then .next (skipStep i (fetch s.beginCall).2)
      else exec i (fetch s.beginCall).2 := by
  have hw : decodeWord (fetch s.beginCall).1 = i := by rw [fetch_word]; exact hi
  rw [step_of_ready hl hf, hw, skips, (fetch_quiet s.beginCall).skip, State.beginCall_skip]

theorem decodeWord_cell_of_encode (hwf : i.wf = true) (hw : s.cell s.pc = encode i) :
    decodeWord (s.cell s.pc) = i := by
  rw [hw, decodeWord_encode hwf]

/-- R82: a ready step at a halt word halts, whether or not a skip is pending. -/
theorem step_of_isHalt (hl : s.loaded = true) (hf : s.faulted = none)
    (hi : (decodeWord (s.cell s.pc)).isHalt = true) :
    step s = .next ((fetch s.beginCall).2.returning .halted) := by
  obtain ⟨fa, fb, hd⟩ := (Instr.isHalt_iff _).1 hi
  rw [step_of_decodeWord hl hf hd, exec_halt]
  simp [Instr.isHalt]

/-! ### Refusals (R80) -/

theorem exec_not_refused (i : Instr) (s : State) (r : Refusal) : exec i s ≠ .refused r := by
  cases hi : i.isHalt with
  | true =>
    obtain ⟨fa, fb, rfl⟩ := (Instr.isHalt_iff i).1 hi
    nofun
  | false =>
    rw [exec_eq_finish i s hi]
    exact finish_not_refused i s.pc _ r

theorem step_of_stepRefusal {r : Refusal} (h : stepRefusal s = some r) : step s = .refused r := by
  rw [step, h]

theorem step_not_refused_of_ready (hl : s.loaded = true) (hf : s.faulted = none) (r : Refusal) :
    step s ≠ .refused r := by
  rw [step_of_ready hl hf]
  split
  · nofun
  · exact exec_not_refused _ _ r

/-! ### The skipped step (R83) -/

@[simp] theorem skipStep_regs (i : Instr) (s : State) : (skipStep i s).regs = s.regs :=
  (foldl_noOp_quiet i.operands s).regs

@[simp] theorem skipStep_o (i : Instr) (s : State) : (skipStep i s).o = s.o :=
  (foldl_noOp_quiet i.operands s).o

@[simp] theorem skipStep_sp (i : Instr) (s : State) : (skipStep i s).sp = s.sp := (skipStep_mem i s).2

@[simp] theorem skipStep_cell (i : Instr) (s : State) (x : Word) : (skipStep i s).cell x = s.cell x := by
  simp [State.cell, (skipStep_mem i s).1]

theorem skipStep_keepsControl (i : Instr) (s : State) : KeepsControl s (skipStep i s) :=
  (foldl_noOp_quiet i.operands s).keepsControl

/-! ### A halted call (R82) -/

/-- R82: a call returns `Halted` only at a halt word, and leaves the state after the fetch. -/
theorem step_next_halted (h : step s = .next t) (ht : t.result = some .halted) :
    s.loaded = true ∧ s.faulted = none ∧ (decodeWord (s.cell s.pc)).isHalt = true ∧
      t = (fetch s.beginCall).2.returning .halted := by
  obtain ⟨hl, hf, ⟨-, -, rfl⟩ | ⟨-, hexec⟩⟩ := step_eq_next h
  · cases ht
  · cases hi : (decodeWord (s.cell s.pc)).isHalt with
    | true => exact ⟨hl, hf, rfl, exec_next_of_isHalt hi hexec⟩
    | false =>
      obtain ⟨u, -, rfl⟩ := exec_next_kept hi hexec
      cases ht

/-- R82: halting is not latched, but PC stays on a halt word. -/
theorem step_next_halted_cell_pc (h : step s = .next t) (ht : t.result = some .halted) :
    (decodeWord (t.cell t.pc)).isHalt = true := by
  obtain ⟨-, -, hi, rfl⟩ := step_next_halted h ht
  exact fetch_cell_pc_isHalt (s := s.beginCall) hi

/-- R81: a second fetch of the same word finds its cell as the first one left it. -/
theorem fetch_fetch_cell (s : State) (r : StepResult) (x : Word) :
    (fetch ((fetch s).2.returning r).beginCall).2.cell x = ((fetch s).2.returning r).cell x := by
  simp only [fetch_cell, State.beginCall_params, State.returning_params, (fetch_quiet s).params, State.beginCall_pc,
    State.returning_pc, fetch_pc, State.cell_beginCall, State.cell_returning]
  split <;> rfl

end

/-! ### Runs (R89) -/

/-- R89: a run that halts halts at its first call, or goes on after it and halts later. -/
theorem runFor_succ_eq_halted {n : Nat} {s t : State} :
    runFor (n + 1) s = .halted t ↔ ∃ u, step s = .next u ∧
      (u.result = some .halted ∧ u = t ∨ u.result ≠ some .halted ∧ runFor n u = .halted t) := by
  rw [runFor]
  cases hs : step s with
  | next u => by_cases hu : u.result = some .halted <;> simp [hu]
  | fault f => simp
  | refused r => simp

/-- R89: a run that halts ends with a call that returned `Halted`. -/
theorem runFor_halted_last {n : Nat} {s t : State} (h : runFor n s = .halted t) :
    ∃ u, step u = .next t ∧ t.result = some .halted := by
  induction n generalizing s with
  | zero => cases h
  | succ n ih =>
    obtain ⟨u, hs, ⟨hu, rfl⟩ | ⟨-, hrun⟩⟩ := runFor_succ_eq_halted.1 h
    · exact ⟨s, hs, hu⟩
    · exact ih hrun

/-- D29: more fuel does not change the end of a run that halts. -/
theorem runFor_add_of_halted {n : Nat} {s t : State} (h : runFor n s = .halted t) (k : Nat) :
    runFor (n + k) s = .halted t := by
  induction n generalizing s with
  | zero => cases h
  | succ n ih =>
    rw [Nat.add_right_comm, runFor_succ_eq_halted]
    obtain ⟨u, hs, ⟨hu, hut⟩ | ⟨hu, hrun⟩⟩ := runFor_succ_eq_halted.1 h
    · exact ⟨u, hs, .inl ⟨hu, hut⟩⟩
    · exact ⟨u, hs, .inr ⟨hu, ih hrun⟩⟩

/-! ### The end of an executed step (R85) -/

/-- R85: the state a completed instruction leaves, when its `apply` left `u` and wrote PC if `pw`. -/
def completed (pw : Bool) (u : State) : State := (if pw then u else u.incPc).returning .executed

section

variable (pw : Bool) (u : State)

@[simp] theorem completed_regs : (completed pw u).regs = u.regs := by cases pw <;> rfl
@[simp] theorem completed_pc : (completed pw u).pc = if pw then u.pc else u.pc + 1 := by cases pw <;> rfl
@[simp] theorem completed_sp : (completed pw u).sp = u.sp := by cases pw <;> rfl
@[simp] theorem completed_o : (completed pw u).o = u.o := by cases pw <;> rfl
@[simp] theorem completed_skip : (completed pw u).skip = u.skip := by cases pw <;> rfl
@[simp] theorem completed_cell (x : Word) : (completed pw u).cell x = u.cell x := by cases pw <;> rfl

theorem completed_keepsControl : KeepsControl u (completed pw u) := by cases pw <;> exact ⟨rfl, rfl, rfl⟩

end

theorem exec_eq_next {i : Instr} {s t : State} (hi : i.isHalt = false) :
    exec i s = .next t ↔ ∃ pw u, applied i s = .ok pw u ∧ t = completed pw u := by
  rw [exec_eq_finish i s hi, finish_eq_next]
  rfl

/-! ### What the reads of an instruction leave (R31, R69, R79) -/

/-- R31: reading `ds` after `cs` clears the keys among both. -/
theorem afterReading_append {cs : List Word} {s t : State} (h : ∀ x, t.cell x = afterReading cs s x)
    (ds : List Word) (x : Word) : afterReading ds t x = afterReading (cs ++ ds) s x := by
  simp only [afterReading, h, List.mem_append]
  by_cases hk : regionOf x = .keyboard <;> by_cases hc : x ∈ cs <;> by_cases hd : x ∈ ds <;> simp [hk, hc, hd]

theorem afterRd_of_ok {r : Resolved} {s t : State} {v : Word × Resolved} (h : rd r s = .ok v t) : afterRd r s = t := by
  rw [afterRd, h]

/-- R69: the first read of an operand moves SP if it is POP. -/
theorem rd_process_sp {op : Operand} {u s t : State} {v : Word × Resolved} (h : rd (process op u).1 s = .ok v t) :
    t.sp = s.sp + popMoves op := by
  by_cases hop : op = .pop
  · subst hop
    exact rd_sp_pop h
  · rw [rd_sp_of_ne_pop h (by simpa using hop), popMoves, if_neg hop]
    exact (BitVec.add_zero s.sp).symm

section

variable {a b : Operand} {s s1 : State} {v : Reads}

theorem readBoth_sp (h : readBoth a b s = .ok v s1) : s1.sp = s.sp + popMoves a + popMoves b := by
  obtain ⟨va, sa, vb, ha, hb, -⟩ := readBoth_eq_ok.1 h
  rw [rd_process_sp hb, rd_process_sp ha, process_sp, process_sp]

theorem readBoth_cell (h : readBoth a b s = .ok v s1) (x : Word) :
    s1.cell x = afterReading (cellsRead a b s) s x := by
  obtain ⟨va, sa, vb, ha, hb, -⟩ := readBoth_eq_ok.1 h
  have hprocess : ∀ x, (process b (process a s).2).2.cell x =
      afterReading (nextWordCells a s ++ nextWordCells b (process a s).2) s x := fun x => by
    rw [process_cell_eq_afterReading, afterReading_append (process_cell_eq_afterReading a s)]
  have hreadA : ∀ x, sa.cell x = afterReading (nextWordCells a s ++ nextWordCells b (process a s).2 ++
      ((process a s).1.readAddr (process b (process a s).2).2).toList) s x := fun x => by
    rw [rd_cell_eq_afterReading ha, afterReading_append hprocess]
  rw [rd_cell_eq_afterReading hb, afterReading_append hreadA, cellsRead, afterRd_of_ok ha]

theorem readBoth_readable (h : readBoth a b s = .ok v s1) : readable a = true := by
  obtain ⟨va, sa, vb, ha, -⟩ := readBoth_eq_ok.1 h
  simpa using rd_readable ha

/-- R78, D5: a second access to operand A moves SP only if it is POP and every access of POP moves it. -/
theorem readBoth_rdSp_dst (h : readBoth a b s = .ok v s1) :
    rdSp v.dst s1 = s1.sp + if s.params.stackRmwMode = .perAccess then popMoves a else 0 := by
  have hparams : s1.params = s.params := (readBoth_quiet h).params
  obtain ⟨va, sa, vb, ha, -, rfl⟩ := readBoth_eq_ok.1 h
  rw [rd_dst ha, ← hparams]
  cases a with
  | pop =>
    cases hmode : s1.params.stackRmwMode with
    | perAccess => simp [process, rdDst, rdSp, popMove_of_perAccess _ hmode, popMoves]
    | resolveOnce => simp [process, rdDst, rdSp, popMove_some_of_resolveOnce _ hmode]
  | _ => simp [process, rdDst, rdSp, popMoves]

end

/-! ### Writing through operand A (R65, R87) -/

theorem rdSp_setO (r : Resolved) (s : State) (v : Word) : rdSp r (s.setO v) = rdSp r s := by
  cases r with
  | pop sa => cases hmode : s.params.stackRmwMode <;> cases sa <;> simp [rdSp, popMove, hmode]
  | _ => rfl

/-- What a write through `dst`, with or without the write of O beside it, leaves of `s`: PC is written exactly by a jump,
SP moves as another access of a readable operand moves it, and no cell changes but the one `dst` stores to. -/
structure WroteThrough (dst : Resolved) (s : State) (pw : Bool) (t : State) : Prop where
  jump : pw = (dst.operand == .pc)
  pc : dst.operand ≠ .pc → t.pc = s.pc
  sp : readable dst.operand = true → dst.operand ≠ .sp → t.sp = rdSp dst s
  skip : t.skip = s.skip
  control : KeepsControl s t
  cell : ∀ x, dst.writeAddr s ≠ some x → t.cell x = s.cell x

section

variable {dst : Resolved} {s t : State} {pw : Bool}

theorem wr_wroteThrough {v : Word} (h : wr dst v s = .ok pw t) : WroteThrough dst s pw t := by
  obtain ⟨hskip, hloaded, hfaulted, hparams, -⟩ := wr_control h
  refine ⟨wr_jumps h, fun hne => by rw [wr_pc h, if_neg hne], fun hr hne => ?_, hskip, ⟨hloaded, hfaulted, hparams⟩,
    fun x hx => by rw [wr_cell h, if_neg hx]⟩
  rw [wr_sp h]
  cases dst with
  | sp => exact absurd rfl hne
  | push => cases hr
  | _ => rfl

/-- R87: the write of O leaves all of this alone, whichever write comes first. -/
theorem writeResultAndOverflow_wroteThrough {pair : Word × Word}
    (h : writeResultAndOverflow dst pair s = .ok pw t) : WroteThrough dst s pw t := by
  obtain ⟨-, u, hwr, rfl⟩ | ⟨-, hwr⟩ := writeResultAndOverflow_eq_ok.1 h
  · have hw := wr_wroteThrough hwr
    exact ⟨hw.jump, hw.pc, hw.sp, hw.skip, hw.control, hw.cell⟩
  · have hw := wr_wroteThrough hwr
    exact ⟨hw.jump, hw.pc, fun hr hne => (hw.sp hr hne).trans (rdSp_setO dst s _), hw.skip, hw.control, hw.cell⟩

end

section

variable {i : Instr} {a b : Operand} {s t : State} {pw : Bool}

theorem applyPlain_wroteThrough {f : Word → Word → Word} (h : applyPlain f a b s = .ok pw t) :
    ∃ v s1, readBoth a b s = .ok v s1 ∧ WroteThrough v.dst s1 pw t := by
  obtain ⟨v, s1, hread, hwr⟩ := applyPlain_eq_ok.1 h
  exact ⟨v, s1, hread, wr_wroteThrough hwr⟩

theorem applyWithOverflow_wroteThrough {f : ArithSemantics → Word → Word → Word × Word}
    (h : applyWithOverflow f a b s = .ok pw t) :
    ∃ v s1, readBoth a b s = .ok v s1 ∧ WroteThrough v.dst s1 pw t := by
  obtain ⟨v, s1, hread, hwr⟩ := applyWithOverflow_eq_ok.1 h
  exact ⟨v, s1, hread, writeResultAndOverflow_wroteThrough hwr⟩

/-! ### apply, by the kind of instruction (R86) -/

/-- R86, `apply_binary`: both operands are read, then operand A is written. -/
theorem applied_rmw (hi : rmwOperands i = some (a, b)) (h : applied i s = .ok pw t) :
    ∃ v s1, readBoth a b s = .ok v s1 ∧ WroteThrough v.dst s1 pw t := by
  cases i with
  | add _ _ | sub _ _ | mul _ _ | div _ _ | shl _ _ | shr _ _ =>
    cases hi
    unfold applied at h
    exact applyWithOverflow_wroteThrough h
  | mod _ _ | and _ _ | bor _ _ | xor _ _ =>
    cases hi
    exact applyPlain_wroteThrough h
  | _ => cases hi

/-- R86, `apply_if`: both operands are read, then at most `skip` is set. -/
theorem applied_if (hi : ifOperands i = some (a, b)) (h : applied i s = .ok pw t) :
    ∃ v s1, readBoth a b s = .ok v s1 ∧ pw = false ∧ ∃ k, t = s1.setSkip k := by
  cases i with
  | ife _ _ | ifn _ _ | ifg _ _ | ifb _ _ =>
    cases hi
    obtain ⟨v, s1, hread, hpw, rfl⟩ := applyIf_eq_ok.1 h
    refine ⟨v, s1, hread, hpw, ?_⟩
    split
    · exact ⟨s1.skip, rfl⟩
    · exact ⟨true, rfl⟩
  | _ => cases hi

theorem isHalt_of_rmwOperands (hi : rmwOperands i = some (a, b)) : i.isHalt = false := by
  cases i with
  | halt _ _ => cases hi
  | _ => rfl

theorem isHalt_of_ifOperands (hi : ifOperands i = some (a, b)) : i.isHalt = false := by
  cases i with
  | halt _ _ => cases hi
  | _ => rfl

theorem destination_of_rmwOperands (hi : rmwOperands i = some (a, b)) : destination i = some a := by
  cases i with
  | set _ _ | ife _ _ | ifn _ _ | ifg _ _ | ifb _ _ | jsr _ | halt _ _ => cases hi
  | _ => cases hi; rfl

/-! ### PC after apply (R85) -/

theorem WroteThrough.pc_eq {dst : Resolved} (h : WroteThrough dst s pw t) (hne : dst.operand ≠ .pc) :
    pw = false ∧ t.pc = s.pc :=
  ⟨h.jump.trans (beq_false_of_ne hne), h.pc hne⟩

theorem applySet_pc (ha : a ≠ .pc) (h : applySet a b s = .ok pw t) :
    pw = false ∧ t.pc = s.pc + BitVec.ofNat 16 a.nextWords + BitVec.ofNat 16 b.nextWords := by
  obtain ⟨v, s1, hread, hwr⟩ := applySet_eq_ok.1 h
  rw [← readSource_pc hread]
  exact (wr_wroteThrough hwr).pc_eq (by rwa [readSource_dst hread])

theorem applied_rmw_pc (hi : rmwOperands i = some (a, b)) (ha : a ≠ .pc) (h : applied i s = .ok pw t) :
    pw = false ∧ t.pc = s.pc + BitVec.ofNat 16 a.nextWords + BitVec.ofNat 16 b.nextWords := by
  obtain ⟨v, s1, hread, hw⟩ := applied_rmw hi h
  rw [← readBoth_pc hread]
  exact hw.pc_eq (by rwa [readBoth_dst hread])

theorem applied_if_pc (hi : ifOperands i = some (a, b)) (h : applied i s = .ok pw t) :
    pw = false ∧ t.pc = s.pc + BitVec.ofNat 16 a.nextWords + BitVec.ofNat 16 b.nextWords := by
  obtain ⟨v, s1, hread, hpw, k, rfl⟩ := applied_if hi h
  rw [← readBoth_pc hread]
  exact ⟨hpw, rfl⟩

theorem length_of_operands (hops : i.operands = [a, b]) : i.length = a.nextWords + b.nextWords + 1 := by
  simp only [Instr.length, hops, List.map_cons, List.map_nil, List.sum_cons, List.sum_nil]
  omega

/-- R85: the increment after `apply` moves PC from the last Word of an instruction of two operands past it. -/
theorem completed_pc_of_operands (hops : i.operands = [a, b])
    (h : pw = false ∧ t.pc = s.pc + BitVec.ofNat 16 a.nextWords + BitVec.ofNat 16 b.nextWords) :
    (completed pw t).pc = s.pc + BitVec.ofNat 16 i.length := by
  obtain ⟨rfl, hpc⟩ := h
  rw [completed_pc, hpc, length_of_operands hops, BitVec.ofNat_add, BitVec.ofNat_add, ← BitVec.add_assoc,
    ← BitVec.add_assoc]
  rfl

theorem destination_ne_pc_of_jumps (hj : jumps i = false) : destination i ≠ some .pc := by
  intro hd
  simp [jumps, hd] at hj

end

end Sys2Proof.Machine

namespace Sys2Proof.Claims

open Sys2Proof.Machine

/-- Settles O6: the cell at PC decodes to the instruction, and a halt word is not skipped. -/
theorem stepRunsTheDecodedInstruction : Obligations.StepRunsTheDecodedInstruction := by
  intro i s hwf hw hl hf hrun
  have hskip : (s.skip && !i.isHalt) = false := by
    obtain h | h := hrun <;> simp [h]
  rw [step_of_decodeWord hl hf (decodeWord_cell_of_encode hwf hw), hskip, fetch_state]
  rfl

/-- Settles O7: the skipped step after the fetch, field by field. -/
theorem pendingSkipPassesOverOneInstruction : Obligations.PendingSkipPassesOverOneInstruction := by
  intro i s hwf hi hw hl hf hs
  have hq := fetch_quiet s.beginCall
  refine ⟨skipStep i (fetch s.beginCall).2, ?_, rfl, ?_, rfl, ?_, ?_, ?_, ?_, fun x => ?_⟩
  · rw [step_of_decodeWord hl hf (decodeWord_cell_of_encode hwf hw), hs, hi]
    rfl
  · rw [skipStep_pc, fetch_pc, State.beginCall_pc]
  · rw [skipStep_regs, hq.regs, State.beginCall_regs]
  · rw [skipStep_sp, fetch_sp, State.beginCall_sp]
  · rw [skipStep_o, hq.o, State.beginCall_o]
  · exact keepsControl_trans hq.keepsControl (skipStep_keepsControl i _)
  · rw [skipStep_cell, fetch_beginCall_cell]

/-- Settles O8: the call leaves the state after the fetch. -/
theorem haltWordHaltsAndChangesNothing : Obligations.HaltWordHaltsAndChangesNothing := by
  intro i s hwf hi hw hl hf
  have hq := fetch_quiet s.beginCall
  have hstep := step_of_isHalt hl hf (by rwa [decodeWord_cell_of_encode hwf hw])
  exact ⟨_, hstep, rfl, fetch_pc s.beginCall, hq.skip, hq.regs, fetch_sp s.beginCall, hq.o, hq.keepsControl,
    fetch_beginCall_cell s⟩

/-- Settles O9: a halted call leaves PC on a halt word, and its fetch has nothing more to clear. -/
theorem haltRepeats : Obligations.HaltRepeats := by
  intro s t h ht
  have hhalt := step_next_halted_cell_pc h ht
  obtain ⟨hl, hf, -, rfl⟩ := step_next_halted h ht
  have hq := fetch_quiet s.beginCall
  have hq' := fetch_quiet ((fetch s.beginCall).2.returning .halted).beginCall
  have hstep := step_of_isHalt (hq.loaded.trans hl) (hq.faulted.trans hf) hhalt
  exact ⟨_, hstep, rfl, fetch_pc _, hq'.regs, fetch_sp _, hq'.o, hq'.skip, fetch_fetch_cell s.beginCall .halted⟩

/-- Settles O10: the three cases of the refusal; `exec` itself refuses nothing. -/
theorem stepIsRefusedExactlyWhenNotLoadedOrFaulted : Obligations.StepIsRefusedExactlyWhenNotLoadedOrFaulted := by
  refine fun s => ⟨fun hl => ?_, fun hl hf => ?_, step_not_refused_of_ready⟩
  · exact step_of_stepRefusal (by rw [stepRefusal, if_pos hl])
  · exact step_of_stepRefusal (by simp [stepRefusal, hl, Option.isSome_iff_ne_none.2 hf])

/-- Settles O13: after `apply` PC is on the last Word of an instruction of two operands that does not write it. -/
theorem pcAdvancesByTheLength : Obligations.PcAdvancesByTheLength := by
  intro i s t h hj hi
  obtain ⟨pw, u, happ, rfl⟩ := (exec_eq_next hi).1 h
  have hd := destination_ne_pc_of_jumps hj
  cases i with
  | set a b => exact completed_pc_of_operands rfl (applySet_pc (mt (congrArg some) hd) happ)
  | add a b | sub a b | mul a b | div a b | mod a b | shl a b | shr a b | and a b | bor a b | xor a b =>
    exact completed_pc_of_operands rfl (applied_rmw_pc rfl (mt (congrArg some) hd) happ)
  | ife a b | ifn a b | ifg a b | ifb a b => exact completed_pc_of_operands rfl (applied_if_pc rfl happ)
  | jsr a => cases hj
  | halt fa fb => cases hi

/-- Settles O23: the registers and O from what a completed instruction can change, the rest from the reads and then the
write through operand A. -/
theorem readModifyWriteFrame : Obligations.ReadModifyWriteFrame := by
  intro i a b s v s1 t hops hread h
  have hd := destination_of_rmwOperands hops
  have hconf := exec_next_confined h
  obtain ⟨pw, u, happ, rfl⟩ := (exec_eq_next (isHalt_of_rmwOperands hops)).1 h
  obtain ⟨v', s1', hread', hw⟩ := applied_rmw hops happ
  obtain ⟨rfl, rfl⟩ := Access.ok.inj (hread.symm.trans hread')
  have hdst := readBoth_dst hread
  have hq := readBoth_quiet hread
  refine ⟨fun r hr => hconf.regs r (by simpa [hd] using hr), fun ha => ?_,
    fun hwo ha => hconf.o hwo (by simpa [hd] using ha), ?_,
    keepsControl_trans (keepsControl_trans hq.keepsControl hw.control) (completed_keepsControl pw u), fun x hx => ?_⟩
  · rw [completed_sp, hw.sp (by rw [hdst]; exact readBoth_readable hread) (by rwa [hdst]), readBoth_rdSp_dst hread,
      readBoth_sp hread]
  · rw [completed_skip, hw.skip, hq.skip]
  · rw [completed_cell, hw.cell x hx, readBoth_cell hread]

/-- Settles O25: an IF leaves what its two reads leave, `skip` and PC apart. -/
theorem ifFrame : Obligations.IfFrame := by
  intro i a b s t hops h
  obtain ⟨pw, u, happ, rfl⟩ := (exec_eq_next (isHalt_of_ifOperands hops)).1 h
  obtain ⟨v, s1, hread, -, k, rfl⟩ := applied_if hops happ
  have hq := readBoth_quiet hread
  refine ⟨?_, ?_, ?_, keepsControl_trans hq.keepsControl (completed_keepsControl pw (s1.setSkip k)), fun x => ?_⟩
  · rw [completed_regs, State.setSkip_regs, hq.regs]
  · rw [completed_sp, State.setSkip_sp, readBoth_sp hread]
  · rw [completed_o, State.setSkip_o, hq.o]
  · rw [completed_cell, State.cell_setSkip, readBoth_cell hread]

/-- Settles O60: the last call of the run halted. -/
theorem runEndsAtAHaltWord : Obligations.RunEndsAtAHaltWord := by
  intro n s t h
  obtain ⟨u, hstep, ht⟩ := runFor_halted_last h
  exact ⟨step_next_halted_cell_pc hstep ht, ht, runFor_add_of_halted h⟩

end Sys2Proof.Claims
end

section
/-! PROOFS. Family 42_arithmetic.md: SET (R91) and the arithmetic instructions (R92 to R98). An instruction that reads
both operands and writes the first completes, with its result stored, or raises at its first read of PUSH or at its
write of a read-only operand A; that is said once for each shape of `apply`, so that each instruction adds its opcode
and its formula only. -/

namespace Sys2Proof.Machine

open Sys2Proof.Claims

/-! ### What the reads of SET leave (R31, R69, R91) -/

/-- R62: processing both operands reads their next words. -/
theorem process_process_cell (a b : Operand) (s : State) (x : Word) :
    (process b (process a s).2).2.cell x =
      afterReading (nextWordCells a s ++ nextWordCells b (process a s).2) s x := by
  rw [process_cell_eq_afterReading, afterReading_append (process_cell_eq_afterReading a s)]

section

variable {a b : Operand} {s s1 : State} {v : Word × Resolved}

theorem readSource_sp (h : readSource a b s = .ok v s1) : s1.sp = s.sp + popMoves b := by
  obtain ⟨vb, hb, -⟩ := readSource_eq_ok.1 h
  rw [rd_process_sp hb, process_sp, process_sp]

theorem readSource_cell (h : readSource a b s = .ok v s1) (x : Word) :
    s1.cell x = afterReading (cellsReadBySet a b s) s x := by
  obtain ⟨vb, hb, -⟩ := readSource_eq_ok.1 h
  rw [rd_cell_eq_afterReading hb, afterReading_append (process_process_cell a b s), cellsReadBySet]

/-- R69: operand A of SET is not read, so its write is the first access, which moves SP if it is POP. -/
theorem readSource_rdSp_dst (h : readSource a b s = .ok v s1) : rdSp v.2 s1 = s1.sp + popMoves a := by
  obtain ⟨vb, -, rfl⟩ := readSource_eq_ok.1 h
  cases a with
  | pop => simp [process, rdSp, popMoves]
  | _ => simp [process, rdSp, popMoves]

end

/-! ### Reads that raise (R64, R88, R110) -/

theorem readable_of_ne_push {op : Operand} (h : op ≠ .push) : readable op = true := by
  cases op with
  | push => exact absurd rfl h
  | _ => rfl

/-- R110: reading PUSH as A raises after both operands are processed. -/
theorem leftByReads_push_left (b : Operand) (s : State) : LeftByReads .push b s (process b s).2 := by
  have hq := process_quiet b s
  refine ⟨hq.regs, hq.o, ?_, fun x => ?_⟩
  · rw [process_sp, movesBeforeRaise, if_pos rfl]
    exact (BitVec.add_zero s.sp).symm
  · rw [process_cell_eq_afterReading, cellsReadBeforeRaise, if_pos rfl]
    rfl

/-- R110: reading PUSH as B raises after the read of A. -/
theorem leftByReads_push_right {a : Operand} {s t : State} {va : Word × Resolved} (ha : a ≠ .push)
    (h : rd (process a s).1 (process a s).2 = .ok va t) : LeftByReads a .push s t := by
  have hq := (process_quiet a s).trans (rd_quiet h)
  refine ⟨hq.regs, hq.o, ?_, fun x => ?_⟩
  · rw [rd_process_sp h, process_sp, movesBeforeRaise, if_neg ha]
    exact congrArg (s.sp + ·) (BitVec.add_zero _).symm
  · rw [rd_cell_eq_afterReading h, afterReading_append (process_cell_eq_afterReading a s), cellsReadBeforeRaise,
      if_neg ha]
    simp [cellsRead, process, nextWordCells, Operand.nextWords, Resolved.readAddr]

/-- R88, R110: the reads raise at the first PUSH. -/
theorem readBoth_raises {a b : Operand} (h : a = .push ∨ b = .push) (s : State) :
    ∃ t, readBoth a b s = .raise .readOfWriteOnly 0x1A t ∧ LeftByReads a b s t := by
  by_cases ha : a = .push
  · subst ha
    exact ⟨_, rfl, leftByReads_push_left b s⟩
  · obtain rfl := h.resolve_left ha
    obtain ⟨va, t, hrd⟩ := rd_ok_of_readable (process a s).1 (process a s).2
      (by rw [process_operand, readable_of_ne_push ha])
    refine ⟨t, ?_, leftByReads_push_right ha hrd⟩
    rw [readBoth, show (process .push (process a s).2).2 = (process a s).2 from rfl, hrd]
    rfl

/-- An `apply` that raises ends the call in the fault, with only the fault mark set after the raise. -/
theorem faultsWith_of_applied {i : Instr} {s t : State} {k : FaultKind} {c : Code} {P : State → Prop}
    (hi : i.isHalt = false) (h : applied i s = .raise k c t) (hP : ∀ info, P { t with faulted := info }) :
    FaultsWith i s k c P :=
  ⟨_, by rw [exec_eq_finish i s hi, h, finish_raise], hP _⟩

/-! ### Writes through operand A that store (R65, R87) -/

theorem stored_of_wr {r : Resolved} {v : Word} {s t : State} {pw : Bool} (h : wr r v s = .ok pw t) :
    Stored r s t v := by
  cases r with
  | reg g =>
    obtain ⟨-, rfl⟩ := Access.ok.inj h
    exact Regs.get_set_same s.regs g v
  | ind _ | indNext _ _ _ | peek | nextInd _ =>
    obtain ⟨-, rfl⟩ := Access.ok.inj h
    exact State.cell_memWrite_same s _ v
  | pop sa =>
    obtain ⟨-, rfl⟩ := Access.ok.inj h
    obtain ⟨-, hcell, -⟩ := popWrite_stores (sa := sa) (s := s) v rfl
    exact hcell
  | push =>
    obtain ⟨-, rfl⟩ := Access.ok.inj h
    exact ⟨State.cell_memWrite_same _ _ v, rfl⟩
  | sp | pc | o =>
    obtain ⟨-, rfl⟩ := Access.ok.inj h
    rfl
  | next _ | lit _ => cases h

/-- A write of O moves no operand's location. -/
theorem stored_setO_left (r : Resolved) (s t : State) (o v : Word) : Stored r (s.setO o) t v ↔ Stored r s t v := by
  cases r <;> exact Iff.rfl

theorem stored_setO_right {r : Resolved} {s t : State} {v : Word} (h : Stored r s t v) (hr : r.operand ≠ .o) (o : Word) :
    Stored r s (t.setO o) v := by
  cases r with
  | o => exact absurd rfl hr
  | _ => exact h

/-- R85: the end of the step moves PC only where no jump wrote it. -/
theorem stored_completed {r : Resolved} {s t : State} {v : Word} {pw : Bool} (h : Stored r s t v)
    (hpw : pw = (r.operand == .pc)) : Stored r s (completed pw t) v := by
  subst hpw
  cases r <;> exact h

/-- R65, R85: a writable operand is written, and O is left alone unless it is that operand. -/
theorem wr_stores {dst : Resolved} (h : writable dst.operand = true) (v : Word) (s : State) :
    ∃ pw u, wr dst v s = .ok pw u ∧ Stored dst s (completed pw u) v ∧
      (dst.operand ≠ .o → (completed pw u).o = s.o) := by
  obtain ⟨u, hwr⟩ := wr_ok_of_writable dst v s h
  refine ⟨_, u, hwr, stored_completed (stored_of_wr hwr) rfl, fun hne => ?_⟩
  rw [completed_o, wr_o hwr, if_neg hne]

/-- R87: what the two writes leave in a writable operand A and in O, for either order. -/
theorem writeResultAndOverflow_stores {dst : Resolved} (h : writable dst.operand = true) (pair : Word × Word)
    (s : State) :
    ∃ pw u, writeResultAndOverflow dst pair s = .ok pw u ∧
      (dst.operand ≠ .o → Stored dst s (completed pw u) pair.1 ∧ (completed pw u).o = pair.2) ∧
      (dst.operand = .o →
        (completed pw u).o = if s.params.overflowWriteOrder = .resultThenOverflow then pair.2 else pair.1) := by
  obtain ⟨pw, u, hok⟩ := writeResultAndOverflow_ok_of_writable dst pair s h
  have hjump := (writeResultAndOverflow_wroteThrough hok).jump
  refine ⟨pw, u, hok, fun hne => ?_, fun he => ?_⟩ <;> rw [completed_o]
  all_goals obtain ⟨horder, w, hwr, rfl⟩ | ⟨horder, hwr⟩ := writeResultAndOverflow_eq_ok.1 hok
  · exact ⟨stored_completed (stored_setO_right (stored_of_wr hwr) hne _) hjump, rfl⟩
  · refine ⟨stored_completed ((stored_setO_left dst s u _ _).1 (stored_of_wr hwr)) hjump, ?_⟩
    rw [wr_o hwr, if_neg hne, State.setO_o]
  · rw [if_pos horder, State.setO_o]
  · rw [horder, if_neg nofun, wr_o hwr, if_pos he]

/-! ### Writes through operand A that raise (R65, R87, R88) -/

/-- R87, R88: a raise at the write of A in state `s` leaves all as it was, O apart where it is written first. -/
structure RaisedAtWrite (s t : State) : Prop where
  sp : t.sp = s.sp
  regs : t.regs = s.regs
  cell : ∀ x, t.cell x = s.cell x
  o : s.params.overflowWriteOrder = .resultThenOverflow → t.o = s.o

section

variable {a b : Operand} {s s1 : State}

theorem applySet_raises {v : Word × Resolved} (hread : readSource a b s = .ok v s1) (hw : writable a = false) :
    applySet a b s = .raise .writeOfReadOnly (encodeOperand a) s1 := by
  have hdst := readSource_dst hread
  rw [applySet, hread, Access.bind_ok, wr_raise_of_not_writable _ _ _ (by rwa [hdst]), hdst]

variable {v : Reads}

theorem applyPlain_raises (f : Word → Word → Word) (hread : readBoth a b s = .ok v s1) (hw : writable a = false) :
    applyPlain f a b s = .raise .writeOfReadOnly (encodeOperand a) s1 := by
  have hdst := readBoth_dst hread
  rw [applyPlain, hread, Access.bind_ok, wr_raise_of_not_writable _ _ _ (by rwa [hdst]), hdst]

theorem applyWithOverflow_raises (f : ArithSemantics → Word → Word → Word × Word)
    (hread : readBoth a b s = .ok v s1) (hw : writable a = false) :
    applyWithOverflow f a b s = .raise .writeOfReadOnly (encodeOperand a)
      (if s1.params.overflowWriteOrder = .resultThenOverflow then s1
        else s1.setO (f s1.params.arithSemantics v.a v.b).2) := by
  have hdst := readBoth_dst hread
  have hraise (u : State) (x : Word) : wr v.dst x u = .raise .writeOfReadOnly (encodeOperand a) u := by
    rw [wr_raise_of_not_writable _ _ _ (by rwa [hdst]), hdst]
  rw [applyWithOverflow, hread, Access.bind_ok, writeResultAndOverflow]
  cases s1.params.overflowWriteOrder <;> simp [hraise]

theorem applyWithOverflow_raisedAtWrite (f : ArithSemantics → Word → Word → Word × Word)
    (hread : readBoth a b s = .ok v s1) (hw : writable a = false) :
    ∃ t, applyWithOverflow f a b s = .raise .writeOfReadOnly (encodeOperand a) t ∧ RaisedAtWrite s1 t := by
  refine ⟨_, applyWithOverflow_raises f hread hw, ?_⟩
  split
  case isTrue => exact ⟨rfl, rfl, fun _ => rfl, fun _ => rfl⟩
  case isFalse horder => exact ⟨rfl, rfl, fun _ => rfl, fun h => absurd h horder⟩

/-! ### The faults of an instruction that reads and writes operand A (R86, R110) -/

variable {i : Instr}

theorem applied_rmw_raises_of_read {t : State} {k : FaultKind} {c : Code} (hi : rmwOperands i = some (a, b))
    (h : readBoth a b s = .raise k c t) : applied i s = .raise k c t := by
  cases i with
  | add _ _ | sub _ _ | mul _ _ | div _ _ | shl _ _ | shr _ _ =>
    cases hi
    rw [applied, applyWithOverflow, h, Access.bind_raise]
  | mod _ _ | and _ _ | bor _ _ | xor _ _ =>
    cases hi
    rw [applied, applyPlain, h, Access.bind_raise]
  | _ => cases hi

theorem applied_rmw_raises_of_write (hi : rmwOperands i = some (a, b)) (hread : readBoth a b s = .ok v s1)
    (hw : writable a = false) :
    ∃ t, applied i s = .raise .writeOfReadOnly (encodeOperand a) t ∧ RaisedAtWrite s1 t := by
  cases i with
  | add _ _ | sub _ _ | mul _ _ | div _ _ | shl _ _ | shr _ _ =>
    cases hi
    unfold applied
    exact applyWithOverflow_raisedAtWrite _ hread hw
  | mod _ _ | and _ _ | bor _ _ | xor _ _ =>
    cases hi
    exact ⟨s1, applyPlain_raises _ hread hw, rfl, rfl, fun _ => rfl, fun _ => rfl⟩
  | _ => cases hi

end

/-- R88, R110: the faults of every instruction that reads both operands and writes the first. -/
theorem rmwFaults_of_rmwOperands {mk : Operand → Operand → Instr} (hmk : ∀ a b, rmwOperands (mk a b) = some (a, b)) :
    RmwFaults mk := by
  intro a b s
  have hi := isHalt_of_rmwOperands (hmk a b)
  have hpush (h : a = .push ∨ b = .push) : FaultsWith (mk a b) s .readOfWriteOnly 0x1A (LeftByReads a b s) := by
    obtain ⟨t, hraise, hleft⟩ := readBoth_raises h s
    exact faultsWith_of_applied hi (applied_rmw_raises_of_read (hmk a b) hraise) fun _ => hleft
  refine ⟨fun ha => hpush (.inl ha), fun _ hb => hpush (.inr hb), fun ha hb hw => ?_⟩
  obtain ⟨v, s1, hread⟩ := readBoth_ok a b s ha hb
  have hq := readBoth_quiet hread
  obtain ⟨t, hraise, hleft⟩ := applied_rmw_raises_of_write (hmk a b) hread hw
  exact ⟨v, s1, hread, faultsWith_of_applied hi hraise fun _ => ⟨hleft.sp, hleft.regs.trans hq.regs, hleft.cell,
    fun horder => (hleft.o (by rwa [hq.params])).trans hq.o⟩⟩

/-! ### The rules of the instructions, from their opcode and their formula -/

theorem hasBasicWord_of_encode {mk : Operand → Operand → Instr} (op : BitVec 4)
    (h : ∀ a b, encode (mk a b) = packWord (encodeOperand b) (encodeOperand a) op) : HasBasicWord mk op.toNat :=
  fun a b => by rw [h, packWord_toNat]

section

variable {mk : Operand → Operand → Instr} {op : Nat}

/-- R86, R87: an instruction that writes O satisfies its rule if it is `apply_binary` of a function that gives the
spec's formulas where the guard holds. -/
theorem overflowRule_of_applied {guard : Params → Word → Word → Prop} {fr fo : Nat → Nat → Nat}
    (f : ArithSemantics → Word → Word → Word × Word) (hword : HasBasicWord mk op)
    (hmk : ∀ a b, rmwOperands (mk a b) = some (a, b))
    (happ : ∀ a b s, applied (mk a b) s = applyWithOverflow f a b s)
    (hf : ∀ p x y, guard p x y →
      f p.arithSemantics x y = (BitVec.ofNat 16 (fr x.toNat y.toNat), BitVec.ofNat 16 (fo x.toNat y.toNat))) :
    OverflowRule mk op guard fr fo := by
  refine ⟨hword, rmwFaults_of_rmwOperands hmk, fun a b s ha hw hb => ?_, fun a b s ha hw hb horder => ?_⟩
  all_goals
    have hi := isHalt_of_rmwOperands (hmk a b)
    obtain ⟨v, s1, hread⟩ := readBoth_ok a b s ha hb
    have hparams := (readBoth_quiet hread).params
  · have hdst := readBoth_dst hread
    obtain ⟨pw, u, hwr, hstored, ho⟩ :=
      writeResultAndOverflow_stores (by rwa [hdst]) (f s1.params.arithSemantics v.a v.b) s1
    rw [hdst] at hstored ho
    refine ⟨v, s1, completed pw u, _, _, hread, ?_, rfl,
      fun hg => Prod.ext_iff.1 (hf s1.params v.a v.b (by rwa [hparams])), hstored, fun he => ?_⟩
    · exact (exec_eq_next hi).2 ⟨pw, u, (happ a b s).trans (applyWithOverflow_eq_ok.2 ⟨v, s1, hread, hwr⟩), rfl⟩
    · rw [ho he, hparams]
      cases s.params.overflowWriteOrder <;> rfl
  · refine ⟨v, s1, hread, fun hg => faultsWith_of_applied hi ((happ a b s).trans (applyWithOverflow_raises f hread hw))
      fun _ => ?_⟩
    rw [hparams, horder, hf _ _ _ hg]
    rfl

/-- R86: an instruction that leaves O alone satisfies its rule if it is `apply_binary` of the spec's formula. -/
theorem plainRule_of_applied {fr : Nat → Nat → Nat} (f : Word → Word → Word) (hword : HasBasicWord mk op)
    (hmk : ∀ a b, rmwOperands (mk a b) = some (a, b)) (happ : ∀ a b s, applied (mk a b) s = applyPlain f a b s)
    (hf : ∀ x y, f x y = BitVec.ofNat 16 (fr x.toNat y.toNat)) : PlainRule mk op fr := by
  refine ⟨hword, rmwFaults_of_rmwOperands hmk, fun a b s ha hw hb => ?_, fun a b s ha hw hb => ?_⟩
  all_goals
    have hi := isHalt_of_rmwOperands (hmk a b)
    obtain ⟨v, s1, hread⟩ := readBoth_ok a b s ha hb
    have ho := (readBoth_quiet hread).o
  · have hdst := readBoth_dst hread
    obtain ⟨pw, u, hwr, hstored, hkeep⟩ := wr_stores (by rwa [hdst]) (f v.a v.b) s1
    rw [hf] at hstored
    rw [hdst, ho] at hkeep
    exact ⟨v, s1, completed pw u, hread,
      (exec_eq_next hi).2 ⟨pw, u, (happ a b s).trans (applyPlain_eq_ok.2 ⟨v, s1, hread, hwr⟩), rfl⟩, rfl, hstored,
      hkeep⟩
  · exact faultsWith_of_applied hi ((happ a b s).trans (applyPlain_raises f hread hw)) fun _ => ho

end

/-! ### The formulas on unbounded integers (R8, R92 to R98) -/

/-- R8: masking an unbounded integer twice masks it once. -/
theorem ofNat_mod_65536 (n : Nat) : BitVec.ofNat 16 (n % 0x10000) = BitVec.ofNat 16 n :=
  BitVec.eq_of_toNat_eq (by simp)

section

variable (a b : Word)

theorem addPair_eq : addPair a b = (BitVec.ofNat 16 ((a.toNat + b.toNat) % 0x10000),
    BitVec.ofNat 16 (if a.toNat + b.toNat > 0xFFFF then 1 else 0)) := by
  rw [ofNat_mod_65536, apply_ite (BitVec.ofNat 16)]
  rfl

theorem subPair_eq : subPair a b =
    (BitVec.ofNat 16 (if a.toNat < b.toNat then a.toNat + 0x10000 - b.toNat else a.toNat - b.toNat),
      BitVec.ofNat 16 (if a.toNat < b.toNat then 0xFFFF else 0)) := by
  have hresult : BitVec.ofNat 16 (a.toNat + 0x10000 - b.toNat) =
      BitVec.ofNat 16 (if a.toNat < b.toNat then a.toNat + 0x10000 - b.toNat else a.toNat - b.toNat) := by
    split
    · rfl
    · apply BitVec.eq_of_toNat_eq
      simp only [BitVec.toNat_ofNat]
      omega
  rw [← hresult, apply_ite (BitVec.ofNat 16)]
  rfl

theorem mulPair_eq : mulPair a b = (BitVec.ofNat 16 (a.toNat * b.toNat % 0x10000),
    BitVec.ofNat 16 (a.toNat * b.toNat / 0x10000 % 0x10000)) := by
  rw [ofNat_mod_65536, ofNat_mod_65536, mulPair, Nat.shiftRight_eq_div_pow]

theorem divPair_eq : divPair a b = (BitVec.ofNat 16 (a.toNat / b.toNat),
    BitVec.ofNat 16 (a.toNat * 0x10000 / b.toNat % 0x10000)) := by
  rw [ofNat_mod_65536, divPair, Nat.shiftLeft_eq]

theorem divUnder_eq {sem : ArithSemantics} (h : sem = .mathematical ∨ b = 0) : divUnder sem a b =
    (BitVec.ofNat 16 (if b.toNat = 0 then 0 else a.toNat / b.toNat),
      BitVec.ofNat 16 (if b.toNat = 0 then 0 else a.toNat * 0x10000 / b.toNat % 0x10000)) := by
  by_cases hb : b = 0
  · subst hb
    rfl
  · obtain rfl := h.resolve_right hb
    have hn : b.toNat ≠ 0 := BitVec.toNat_ne.1 hb
    rw [if_neg hn, if_neg hn, divUnder, if_neg hb, ← divPair_eq]
    rfl

theorem modResult_eq : modResult a b = BitVec.ofNat 16 (if b.toNat = 0 then 0 else a.toNat % b.toNat) := by
  by_cases hb : b = 0
  · subst hb
    rfl
  · have hn : b.toNat ≠ 0 := BitVec.toNat_ne.1 hb
    rw [modResult, if_neg hb, if_neg hn]

theorem shlPair_eq : shlPair a b = (BitVec.ofNat 16 (a.toNat * 2 ^ b.toNat % 0x10000),
    BitVec.ofNat 16 (a.toNat * 2 ^ b.toNat / 0x10000 % 0x10000)) := by
  rw [ofNat_mod_65536, ofNat_mod_65536, shlPair, Nat.shiftRight_eq_div_pow, Nat.shiftLeft_eq]

theorem shrPair_eq : shrPair a b = (BitVec.ofNat 16 (a.toNat / 2 ^ b.toNat),
    BitVec.ofNat 16 (a.toNat * 0x10000 / 2 ^ b.toNat % 0x10000)) := by
  rw [ofNat_mod_65536, shrPair, Nat.shiftRight_eq_div_pow, Nat.shiftRight_eq_div_pow, Nat.shiftLeft_eq]

end

theorem underSemantics_of_mathematical {sem : ArithSemantics} (h : sem = .mathematical) (op : ArithOp)
    (pair : Word × Word) (a b : Word) : underSemantics sem op pair a b = pair := by
  rw [h, underSemantics]

end Sys2Proof.Machine

namespace Sys2Proof.Claims

open Sys2Proof.Machine

/-- Settles O24: the registers and O from what a completed instruction can change, the rest from the read of B and then
the write through operand A, where PUSH moves SP down and a readable operand moves it as a first access does. -/
theorem setFrame : Obligations.SetFrame := by
  intro a b s v s1 t hread h
  have hconf := exec_next_confined h
  obtain ⟨pw, u, happ, rfl⟩ := (exec_eq_next rfl).1 h
  obtain ⟨v', s1', hread', hwr⟩ := applySet_eq_ok.1 happ
  obtain ⟨rfl, rfl⟩ := Access.ok.inj (hread.symm.trans hread')
  have hw := wr_wroteThrough hwr
  have hdst := readSource_dst hread
  have hq := readSource_quiet hread
  have hsp := readSource_sp hread
  refine ⟨fun r hr => hconf.regs r (mt Option.some.inj hr), fun hnsp hnpush => ?sp, fun hpush => ?push,
    fun ho => hconf.o rfl (mt Option.some.inj ho), ?_,
    keepsControl_trans (keepsControl_trans hq.keepsControl hw.control) (completed_keepsControl pw u), fun x hx => ?_⟩
  case sp =>
    rw [completed_sp, hw.sp (by rw [hdst, readable_of_ne_push hnpush]) (by rwa [hdst]), readSource_rdSp_dst hread, hsp,
      add_right_comm]
  case push =>
    rw [completed_sp, wr_sp hwr, Resolved.eq_push (hdst.trans hpush), wrSp, hsp]
  · rw [completed_skip, hw.skip, hq.skip]
  · rw [completed_cell, hw.cell x hx, readSource_cell hread]

/-- Settles O27: the write after the read of B stores its value or raises; a read of PUSH raises in the state after
`process`. -/
theorem setCopies : Obligations.SetCopies := by
  refine ⟨hasBasicWord_of_encode 0x1 fun _ _ => rfl, fun a b s => ⟨fun hw hb => ?copies, fun hb => ?push,
    fun hw hb => ?readOnly⟩⟩
  case copies =>
    obtain ⟨v, s1, hread⟩ := readSource_ok a b s hb
    have hdst := readSource_dst hread
    obtain ⟨pw, u, hwr, hstored, hkeep⟩ := wr_stores (by rwa [hdst]) v.1 s1
    rw [hdst, (readSource_quiet hread).o] at hkeep
    exact ⟨v, s1, completed pw u, hread, (exec_eq_next rfl).2 ⟨pw, u, applySet_eq_ok.2 ⟨v, s1, hread, hwr⟩, rfl⟩, rfl,
      hstored, hkeep⟩
  case push =>
    subst hb
    have hraise : applied (.set a .push) s = .raise .readOfWriteOnly 0x1A (process a s).2 := rfl
    exact faultsWith_of_applied rfl hraise fun _ => ⟨process_sp a s, (process_quiet a s).o⟩
  case readOnly =>
    obtain ⟨v, s1, hread⟩ := readSource_ok a b s hb
    have hsp := readSource_sp hread
    have ho := (readSource_quiet hread).o
    exact faultsWith_of_applied rfl (applySet_raises hread hw) fun _ => ⟨hsp, ho⟩

/-- Settles O28: ADD is `apply_binary` of the sum and its carry, under every `ArithSemantics`. -/
theorem addWithCarryOut : Obligations.AddWithCarryOut :=
  overflowRule_of_applied (fun _ x y => addPair x y) (hasBasicWord_of_encode 0x2 fun _ _ => rfl) (fun _ _ => rfl)
    (fun _ _ _ => rfl) fun _ x y _ => addPair_eq x y

/-- Settles O29: SUB is `apply_binary` of the difference and its borrow, under every `ArithSemantics`. -/
theorem subWithBorrowOut : Obligations.SubWithBorrowOut :=
  overflowRule_of_applied (fun _ x y => subPair x y) (hasBasicWord_of_encode 0x3 fun _ _ => rfl) (fun _ _ => rfl)
    (fun _ _ _ => rfl) fun _ x y _ => subPair_eq x y

/-- Settles O30: the two Words of the unbounded product. -/
theorem mulHighWordToO : Obligations.MulHighWordToO :=
  overflowRule_of_applied (fun sem x y => underSemantics sem .mul (mulPair x y) x y)
    (hasBasicWord_of_encode 0x4 fun _ _ => rfl) (fun _ _ => rfl) (fun _ _ _ => rfl) fun _ x y hg =>
      (underSemantics_of_mathematical hg .mul _ x y).trans (mulPair_eq x y)

/-- Settles O31: a zero divisor gives 0 and 0 before `ArithSemantics` is looked at. -/
theorem divFractionToO : Obligations.DivFractionToO :=
  overflowRule_of_applied divUnder (hasBasicWord_of_encode 0x5 fun _ _ => rfl) (fun _ _ => rfl) (fun _ _ _ => rfl)
    fun _ x y hg => divUnder_eq x y hg

/-- Settles O32: MOD is `apply_binary` of the remainder and leaves O alone. -/
theorem modRemainder : Obligations.ModRemainder :=
  plainRule_of_applied modResult (hasBasicWord_of_encode 0x6 fun _ _ => rfl) (fun _ _ => rfl) (fun _ _ _ => rfl)
    modResult_eq

/-- Settles O33: the shift is a product with a power of 2, for every count. -/
theorem shlShiftedOutToO : Obligations.ShlShiftedOutToO :=
  overflowRule_of_applied (fun sem x y => underSemantics sem .shl (shlPair x y) x y)
    (hasBasicWord_of_encode 0x7 fun _ _ => rfl) (fun _ _ => rfl) (fun _ _ _ => rfl) fun _ x y hg =>
      (underSemantics_of_mathematical hg .shl _ x y).trans (shlPair_eq x y)

/-- Settles O34: the shift is a quotient by a power of 2, for every count. -/
theorem shrShiftedOutToO : Obligations.ShrShiftedOutToO :=
  overflowRule_of_applied (fun sem x y => underSemantics sem .shr (shrPair x y) x y)
    (hasBasicWord_of_encode 0x8 fun _ _ => rfl) (fun _ _ => rfl) (fun _ _ _ => rfl) fun _ x y hg =>
      (underSemantics_of_mathematical hg .shr _ x y).trans (shrPair_eq x y)

end Sys2Proof.Claims
end

section
/-! PROOFS. Family 43_bitwise.md: AND, BOR and XOR (R99 to R101). Each is `apply_binary` of a bitwise operation that
leaves O alone, so it satisfies `plainRule_of_applied`; what is left is its opcode and its formula on numbers. -/

namespace Sys2Proof.Machine

/-- R8: a formula on numbers that gives the value of a Word needs no masking. -/
theorem eq_ofNat_of_toNat_eq {w : Word} {n : Nat} (h : w.toNat = n) : w = BitVec.ofNat 16 n := by
  rw [← h, BitVec.ofNat_toNat, BitVec.setWidth_eq]

end Sys2Proof.Machine

namespace Sys2Proof.Claims

open Sys2Proof.Machine

/-- Settles O36: the conjunction of two Words is that of their values. -/
theorem andBitwise : Obligations.AndBitwise :=
  plainRule_of_applied (fun x y => x &&& y) (hasBasicWord_of_encode 0x9 fun _ _ => rfl) (fun _ _ => rfl)
    (fun _ _ _ => rfl) fun x y => eq_ofNat_of_toNat_eq (BitVec.toNat_and x y)

/-- Settles O37: the disjunction of two Words is that of their values. -/
theorem borBitwise : Obligations.BorBitwise :=
  plainRule_of_applied (fun x y => x ||| y) (hasBasicWord_of_encode 0xA fun _ _ => rfl) (fun _ _ => rfl)
    (fun _ _ _ => rfl) fun x y => eq_ofNat_of_toNat_eq (BitVec.toNat_or x y)

/-- Settles O38: the exclusive disjunction of two Words is that of their values. -/
theorem xorBitwise : Obligations.XorBitwise :=
  plainRule_of_applied (fun x y => x ^^^ y) (hasBasicWord_of_encode 0xB fun _ _ => rfl) (fun _ _ => rfl)
    (fun _ _ _ => rfl) fun x y => eq_ofNat_of_toNat_eq (BitVec.toNat_xor x y)

end Sys2Proof.Claims
end

section
/-! PROOFS. Family 44_conditional.md: IFE, IFN, IFG and IFB (R102 to R105). Each is `apply_if` of a test of two Words;
what `apply_if` does is said once, so that each instruction adds its opcode and what its test says of numbers. -/

namespace Sys2Proof.Machine

open Sys2Proof.Claims

section

variable {i : Instr} {a b : Operand} {s : State}

theorem operands_of_ifOperands (hi : ifOperands i = some (a, b)) : i.operands = [a, b] := by
  cases i with
  | ife _ _ | ifn _ _ | ifg _ _ | ifb _ _ => cases hi; rfl
  | _ => cases hi

/-- R86, R88: an IF raises where its reads do. -/
theorem applied_if_raises_of_read {t : State} {k : FaultKind} {c : Code} (hi : ifOperands i = some (a, b))
    (h : readBoth a b s = .raise k c t) : applied i s = .raise k c t := by
  cases i with
  | ife _ _ | ifn _ _ | ifg _ _ | ifb _ _ =>
    cases hi
    rw [applied, applyIf, h, Access.bind_raise]
  | _ => cases hi

/-- R88, R110: an IF faults at its first read of PUSH. -/
theorem if_faults_of_push (hi : ifOperands i = some (a, b)) (h : a = .push ∨ b = .push) :
    FaultsWith i s .readOfWriteOnly 0x1A (LeftByReads a b s) := by
  obtain ⟨t, hraise, hleft⟩ := readBoth_raises h s
  exact faultsWith_of_applied (isHalt_of_ifOperands hi) (applied_if_raises_of_read hi hraise) fun _ => hleft

/-- R85: an IF never writes PC, so the end of the step moves it past the instruction. -/
theorem completed_if_pc {pw : Bool} {u : State} (hi : ifOperands i = some (a, b)) (h : applied i s = .ok pw u) :
    (completed pw u).pc = s.pc + BitVec.ofNat 16 i.length :=
  completed_pc_of_operands (operands_of_ifOperands hi) (applied_if_pc hi h)

end

/-- R86: an IF satisfies its rule if it is `apply_if` of a test that says of two Words what the rule says of their
values. -/
theorem ifRule_of_applied {mk : Operand → Operand → Instr} {op : Nat} {cond : Nat → Nat → Prop}
    (f : Word → Word → Bool) (hword : HasBasicWord mk op) (hmk : ∀ a b, ifOperands (mk a b) = some (a, b))
    (happ : ∀ a b s, applied (mk a b) s = applyIf f a b s)
    (hf : ∀ x y, f x y = true ↔ cond x.toNat y.toNat) : IfRule mk op cond := by
  refine ⟨hword, fun a b s => ⟨fun ha => if_faults_of_push (hmk a b) (.inl ha),
    fun _ hb => if_faults_of_push (hmk a b) (.inr hb)⟩, fun a b s ha hb => ?_⟩
  obtain ⟨v, s1, hread⟩ := readBoth_ok a b s ha hb
  have hq := readBoth_quiet hread
  have hok : applied (mk a b) s = .ok false (if f v.a v.b then s1 else s1.setSkip true) :=
    (happ a b s).trans (applyIf_eq_ok.2 ⟨v, s1, hread, rfl, rfl⟩)
  refine ⟨v, s1, _, hread, (exec_eq_next (isHalt_of_ifOperands (hmk a b))).2 ⟨_, _, hok, rfl⟩, rfl,
    fun hc => ?holds, fun hc => ?fails, completed_if_pc (hmk a b) hok, ?frame⟩
  case holds => rw [completed_skip, if_pos ((hf v.a v.b).2 hc), hq.skip]
  case fails => rw [completed_skip, if_neg (mt (hf v.a v.b).1 hc), State.setSkip_skip]
  case frame =>
    simp only [completed_regs, completed_o, completed_sp, completed_cell]
    split <;> exact ⟨hq.regs, hq.o, rfl, fun _ => rfl⟩

/-! ### The tests on numbers (R102 to R105) -/

section

variable (a b : Word)

theorem condE_iff : condE a b = true ↔ a.toNat = b.toNat := by
  rw [condE, beq_iff_eq, BitVec.toNat_inj]

theorem condN_iff : condN a b = true ↔ a.toNat ≠ b.toNat := by
  rw [condN, bne_iff_ne, BitVec.toNat_ne]

theorem condG_iff : condG a b = true ↔ a.toNat > b.toNat := by
  rw [condG, decide_eq_true_iff]

theorem condB_iff : condB a b = true ↔ Nat.land a.toNat b.toNat ≠ 0 := by
  rw [condB, bne_iff_ne, BitVec.toNat_ne, BitVec.toNat_and]
  rfl

end

end Sys2Proof.Machine

namespace Sys2Proof.Claims

open Sys2Proof.Machine

/-- Settles O39: two Words are equal exactly when their values are. -/
theorem ifeSkipsUnlessEqual : Obligations.IfeSkipsUnlessEqual :=
  ifRule_of_applied condE (hasBasicWord_of_encode 0xC fun _ _ => rfl) (fun _ _ => rfl) (fun _ _ _ => rfl) condE_iff

/-- Settles O40: two Words differ exactly when their values do. -/
theorem ifnSkipsUnlessDifferent : Obligations.IfnSkipsUnlessDifferent :=
  ifRule_of_applied condN (hasBasicWord_of_encode 0xD fun _ _ => rfl) (fun _ _ => rfl) (fun _ _ _ => rfl) condN_iff

/-- Settles O41: the order of Words is that of their values, unsigned. -/
theorem ifgSkipsUnlessGreater : Obligations.IfgSkipsUnlessGreater :=
  ifRule_of_applied condG (hasBasicWord_of_encode 0xE fun _ _ => rfl) (fun _ _ => rfl) (fun _ _ _ => rfl) condG_iff

/-- Settles O42: the conjunction of two Words is 0 exactly when that of their values is. -/
theorem ifbSkipsUnlessCommonBit : Obligations.IfbSkipsUnlessCommonBit :=
  ifRule_of_applied condB (hasBasicWord_of_encode 0xF fun _ _ => rfl) (fun _ _ => rfl) (fun _ _ _ => rfl) condB_iff

end Sys2Proof.Claims
end

section
/-! PROOFS. Family 45_extended.md: JSR (R106) and the halt sentinel (R107). JSR is the read of its one operand and then
the push of PC and the jump; what each of the two leaves is said once, and both statements about JSR use it. -/

namespace Sys2Proof.Machine

open Sys2Proof.Claims

/-! ### What the read of JSR leaves (R31, R69) -/

section

variable {a : Operand} {s s1 : State} {v : Word × Resolved}

theorem readOperand_sp (h : rd (process a s).1 (process a s).2 = .ok v s1) : s1.sp = s.sp + popMoves a := by
  rw [rd_process_sp h, process_sp]

/-- R62: after the read PC is on JSR's last Word, whatever the operand. -/
theorem readOperand_pc (h : rd (process a s).1 (process a s).2 = .ok v s1) :
    s1.pc = s.pc + BitVec.ofNat 16 a.nextWords := by
  rw [rd_pc h, process_pc]

theorem readOperand_cell (h : rd (process a s).1 (process a s).2 = .ok v s1) (x : Word) :
    s1.cell x = afterReading (cellsReadByJsr a s) s x := by
  rw [rd_cell_eq_afterReading h, afterReading_append (process_cell_eq_afterReading a s), cellsReadByJsr]

end

/-! ### The push and the jump (R106) -/

/-- R106: the state in which JSR leaves the one its read left, when the value read is `target`. -/
def pushPcAndJump (target : Word) (s : State) : State :=
  ((s.setSp (s.sp - 1)).memWrite (s.sp - 1) s.pc).setPc target

section

variable (target : Word) (s : State)

@[simp] theorem pushPcAndJump_pc : (pushPcAndJump target s).pc = target := rfl
@[simp] theorem pushPcAndJump_sp : (pushPcAndJump target s).sp = s.sp - 1 := rfl

theorem pushPcAndJump_cell_pushed : (pushPcAndJump target s).cell (s.sp - 1) = s.pc := by
  rw [pushPcAndJump, State.cell_setPc, State.cell_memWrite_same]

theorem pushPcAndJump_cell_other {x : Word} (hx : x ≠ s.sp - 1) : (pushPcAndJump target s).cell x = s.cell x := by
  rw [pushPcAndJump, State.cell_setPc, State.cell_memWrite_other _ _ hx, State.cell_setSp]

end

/-! ### JSR (R85, R106) -/

/-- R106: JSR as a whole touches only PC, SP and memory. -/
theorem pushPcAndJump_quiet_of_read {a : Operand} {s s1 : State} {v : Word × Resolved}
    (h : rd (process a s).1 (process a s).2 = .ok v s1) : Quiet s (pushPcAndJump v.1 s1) :=
  applyJsr_quiet (applyJsr_eq_ok.2 ⟨v, s1, h, rfl, rfl⟩)

/-- R106: JSR completes exactly when its read does, and then it pushes PC and jumps to the value read. -/
theorem exec_jsr_eq_next {a : Operand} {s t : State} :
    exec (.jsr a) s = .next t ↔ ∃ v s1, rd (process a s).1 (process a s).2 = .ok v s1 ∧
      t = completed true (pushPcAndJump v.1 s1) := by
  rw [exec_eq_next rfl]
  constructor
  · rintro ⟨pw, u, happ, rfl⟩
    obtain ⟨v, s1, hread, rfl, rfl⟩ := applyJsr_eq_ok.1 happ
    exact ⟨v, s1, hread, rfl⟩
  · rintro ⟨v, s1, hread, rfl⟩
    exact ⟨true, _, applyJsr_eq_ok.2 ⟨v, s1, hread, rfl, rfl⟩, rfl⟩

/-- R48: the word of JSR as a number. -/
theorem encode_jsr_toNat (a : Operand) : (encode (.jsr a)).toNat = (encodeOperand a).toNat * 0x400 + 0x10 := by
  simp [encode, packWord_toNat]

/-- R64, R88: JSR raises at its read of PUSH, before SP moves. -/
theorem applied_jsr_push (s : State) : applied (.jsr .push) s = .raise .readOfWriteOnly 0x1A s := rfl

end Sys2Proof.Machine

namespace Sys2Proof.Claims

open Sys2Proof.Machine

/-- Settles O26: what the read of the operand leaves, but for the push and the jump. -/
theorem jsrFrame : Obligations.JsrFrame := by
  intro a s t h
  obtain ⟨v, s1, hread, rfl⟩ := exec_jsr_eq_next.1 h
  have hq := pushPcAndJump_quiet_of_read hread
  have hsp := readOperand_sp hread
  refine ⟨?_, ?_, ?_, ?_, keepsControl_trans hq.keepsControl (completed_keepsControl true _), fun x hx => ?_⟩
  · rw [completed_regs, hq.regs]
  · rw [completed_sp, pushPcAndJump_sp, hsp]
  · rw [completed_o, hq.o]
  · rw [completed_skip, hq.skip]
  · rw [completed_cell, pushPcAndJump_cell_other v.1 s1 (by rwa [hsp]), readOperand_cell hread]

/-- Settles O43: a readable operand is read, and its value is where the push and the jump lead; PUSH raises at the
read. -/
theorem jsrPushesItsLastWordAndJumps : Obligations.JsrPushesItsLastWordAndJumps := by
  refine fun a s => ⟨encode_jsr_toNat a, fun ha => ?jumps, fun ha => ?push⟩
  case jumps =>
    obtain ⟨v, s1, hread⟩ := rd_ok_of_readable (process a s).1 (process a s).2 (by rwa [process_operand])
    have hq := pushPcAndJump_quiet_of_read hread
    refine ⟨v, s1, _, hread, exec_jsr_eq_next.2 ⟨v, s1, hread, rfl⟩, rfl, rfl, rfl, ?_, ?_⟩
    · rw [completed_cell, pushPcAndJump_cell_pushed, readOperand_pc hread]
    · rw [completed_o, hq.o]
  case push =>
    subst ha
    exact faultsWith_of_applied rfl (applied_jsr_push s) fun _ => rfl

/-- Settles O44: the halt sentinel only sets the result of the call. -/
theorem noInstructionChangesNothing : Obligations.NoInstructionChangesNothing := exec_halt

end Sys2Proof.Claims
end

section
/-! PROOFS. Family 60_exceptions.md: when an instruction faults and what the fault reports and leaves (R110 to R114),
that notifications never change an outcome (R121), and the host's ports to memory, PC, SP and O (R123). Whether `apply`
goes on or raises, and in which state it raises, is said once; both statements about faults are read off it. -/

namespace Sys2Proof.Machine

open Sys2Proof.Claims

/-! ### The states in which an instruction can raise (R87, R88, R114) -/

/-- R114: what the reads that `i` makes before it raises leave of `s`, PC on the instruction's last Word. -/
structure ReadsLeft (i : Instr) (s t : State) : Prop where
  quiet : Quiet s t
  pc : t.pc = s.pc + BitVec.ofNat 16 (i.length - 1)
  sp : t.sp = s.sp + (faultReads i s).2
  cell : ∀ x, t.cell x = afterReading (faultReads i s).1 s x

/-- R87, R88: the states in which `i` raises: as its reads left it, or with O written before the write of the result
raised. -/
inductive LeftByFault (i : Instr) (s : State) : State → Prop where
  | reads {t : State} (h : ReadsLeft i s t) : LeftByFault i s t
  | overflow {t : State} (v : Word) (h : ReadsLeft i s t) (hw : writesOverflow i = true)
      (horder : s.params.overflowWriteOrder = .overflowThenResult) (hk : (firstIllegal i).1 = .writeOfReadOnly) :
      LeftByFault i s (t.setO v)

/-- R86: `i` reads A and then B, which are its operands, before it writes anything. -/
structure ReadsBoth (i : Instr) (a b : Operand) : Prop where
  operands : i.operands = [a, b]
  faultReads : ∀ s, faultReads i s = (cellsReadBeforeRaise a b s, movesBeforeRaise a b)

/-- R113: `apply` raises at the first disallowed access. -/
def RaisesFirstIllegal (i : Instr) (s : State) : Prop :=
  ∃ t, applied i s = .raise (firstIllegal i).1 (firstIllegal i).2 t ∧ LeftByFault i s t

section

variable {i : Instr} {a b : Operand} {s t : State}

/-- R79, R88: both operands are processed before a read raises. -/
theorem readBoth_raise {k : FaultKind} {c : Code} (h : readBoth a b s = .raise k c t) :
    Quiet s t ∧ t.pc = s.pc + BitVec.ofNat 16 a.nextWords + BitVec.ofNat 16 b.nextWords := by
  have hq := (process_quiet a s).trans (process_quiet b _)
  have hpc : (process b (process a s).2).2.pc = s.pc + BitVec.ofNat 16 a.nextWords + BitVec.ofNat 16 b.nextWords := by
    rw [process_pc, process_pc]
  obtain hraise | ⟨va, s1, hread, hrest⟩ := Access.bind_eq_raise.1 h
  · obtain ⟨-, -, -, rfl⟩ := rd_raise hraise
    exact ⟨hq, hpc⟩
  · obtain hraise | ⟨vb, s2, -, hok⟩ := Access.bind_eq_raise.1 hrest
    · obtain ⟨-, -, -, rfl⟩ := rd_raise hraise
      exact ⟨hq.trans (rd_quiet hread), (rd_pc hread).trans hpc⟩
    · cases hok

/-- R49: the last Word of an instruction of two operands. -/
theorem lastWord_of_operands (hops : i.operands = [a, b]) (p : Word) :
    p + BitVec.ofNat 16 a.nextWords + BitVec.ofNat 16 b.nextWords = p + BitVec.ofNat 16 (i.length - 1) := by
  rw [length_of_operands hops, Nat.add_sub_cancel, BitVec.ofNat_add, BitVec.add_assoc]

theorem ReadsBoth.readsLeft_of_raise {k : FaultKind} {c : Code} (h : ReadsBoth i a b)
    (hraise : readBoth a b s = .raise k c t) (hleft : LeftByReads a b s t) : ReadsLeft i s t := by
  obtain ⟨hq, hpc⟩ := readBoth_raise hraise
  obtain ⟨-, -, hsp, hcell⟩ := hleft
  exact ⟨hq, hpc.trans (lastWord_of_operands h.operands s.pc), by rw [h.faultReads, hsp],
    fun x => by rw [h.faultReads, hcell]⟩

theorem ReadsBoth.readsLeft_of_ok {v : Reads} (h : ReadsBoth i a b) (hread : readBoth a b s = .ok v t) :
    ReadsLeft i s t := by
  have ha : a ≠ .push := by
    rintro rfl
    cases readBoth_readable hread
  refine ⟨readBoth_quiet hread, (readBoth_pc hread).trans (lastWord_of_operands h.operands s.pc), ?_, fun x => ?_⟩
  · rw [h.faultReads, movesBeforeRaise, if_neg ha, readBoth_sp hread, BitVec.add_assoc]
  · rw [h.faultReads, cellsReadBeforeRaise, if_neg ha, readBoth_cell hread]

/-! ### Instructions that read both operands and write the first (R86, R110) -/

theorem readsBoth_of_rmwOperands (hi : rmwOperands i = some (a, b)) : ReadsBoth i a b := by
  cases i with
  | set _ _ | ife _ _ | ifn _ _ | ifg _ _ | ifb _ _ | jsr _ | halt _ _ => cases hi
  | _ => cases hi; exact ⟨rfl, fun _ => rfl⟩

theorem illegalAccess_of_rmwOperands (hi : rmwOperands i = some (a, b)) :
    illegalAccess i = (!readable a || !readable b || !writable a) := by
  cases i with
  | set _ _ | ife _ _ | ifn _ _ | ifg _ _ | ifb _ _ | jsr _ | halt _ _ => cases hi
  | _ => cases hi; rfl

theorem firstIllegal_of_rmwOperands (hi : rmwOperands i = some (a, b)) : firstIllegal i =
    if a = .push ∨ b = .push then (.readOfWriteOnly, 0x1A) else (.writeOfReadOnly, encodeOperand a) := by
  cases i with
  | set _ _ | ife _ _ | ifn _ _ | ifg _ _ | ifb _ _ | jsr _ | halt _ _ => cases hi
  | _ => cases hi; rfl

/-- R87: the raise at the write of A comes after the reads, and after the write of O where that one is first. -/
theorem applied_rmw_raises_after_reads {v : Reads} (hi : rmwOperands i = some (a, b))
    (hread : readBoth a b s = .ok v t) (hw : writable a = false) :
    ∃ u, applied i s = .raise .writeOfReadOnly (encodeOperand a) u ∧
      (u = t ∨ writesOverflow i = true ∧ t.params.overflowWriteOrder = .overflowThenResult ∧ ∃ o, u = t.setO o) := by
  cases i with
  | add _ _ | sub _ _ | mul _ _ | div _ _ | shl _ _ | shr _ _ =>
    cases hi
    unfold applied
    refine ⟨_, applyWithOverflow_raises _ hread hw, ?_⟩
    cases horder : t.params.overflowWriteOrder with
    | resultThenOverflow => exact .inl (if_pos rfl)
    | overflowThenResult => exact .inr ⟨rfl, rfl, _, if_neg nofun⟩
  | mod _ _ | and _ _ | bor _ _ | xor _ _ =>
    cases hi
    exact ⟨t, applyPlain_raises _ hread hw, .inl rfl⟩
  | _ => cases hi

theorem rmw_raisesFirstIllegal (hi : rmwOperands i = some (a, b)) (s : State) (h : illegalAccess i = true) :
    RaisesFirstIllegal i s := by
  have hfirst := firstIllegal_of_rmwOperands hi
  rw [RaisesFirstIllegal, hfirst]
  have hboth := readsBoth_of_rmwOperands hi
  by_cases hpush : a = .push ∨ b = .push
  · rw [if_pos hpush]
    obtain ⟨t, hraise, hleft⟩ := readBoth_raises hpush s
    exact ⟨t, applied_rmw_raises_of_read hi hraise, .reads (hboth.readsLeft_of_raise hraise hleft)⟩
  · rw [if_neg hpush] at hfirst ⊢
    obtain ⟨ha, hb⟩ := not_or.1 hpush
    have hw : writable a = false := by
      simpa [illegalAccess_of_rmwOperands hi, readable_of_ne_push ha, readable_of_ne_push hb] using h
    obtain ⟨v, t, hread⟩ := readBoth_ok a b s (readable_of_ne_push ha) (readable_of_ne_push hb)
    have hleft := hboth.readsLeft_of_ok hread
    obtain ⟨u, hraise, rfl | ⟨ho, horder, o, rfl⟩⟩ := applied_rmw_raises_after_reads hi hread hw
    · exact ⟨u, hraise, .reads hleft⟩
    · exact ⟨_, hraise, .overflow o hleft ho (by rwa [← hleft.quiet.params]) (by rw [hfirst])⟩

theorem applyWithOverflow_ok_of_writable {v : Reads} (f : ArithSemantics → Word → Word → Word × Word)
    (hread : readBoth a b s = .ok v t) (hw : writable a = true) : ∃ pw u, applyWithOverflow f a b s = .ok pw u := by
  obtain ⟨pw, u, hwr⟩ := writeResultAndOverflow_ok_of_writable v.dst (f t.params.arithSemantics v.a v.b) t
    (by rwa [readBoth_dst hread])
  exact ⟨pw, u, applyWithOverflow_eq_ok.2 ⟨v, t, hread, hwr⟩⟩

theorem applyPlain_ok_of_writable {v : Reads} (f : Word → Word → Word) (hread : readBoth a b s = .ok v t)
    (hw : writable a = true) : ∃ pw u, applyPlain f a b s = .ok pw u := by
  obtain ⟨u, hwr⟩ := wr_ok_of_writable v.dst (f v.a v.b) t (by rwa [readBoth_dst hread])
  exact ⟨_, u, applyPlain_eq_ok.2 ⟨v, t, hread, hwr⟩⟩

theorem applied_rmw_ok_of_legal (hi : rmwOperands i = some (a, b)) (s : State) (h : illegalAccess i = false) :
    ∃ pw t, applied i s = .ok pw t := by
  obtain ⟨⟨ha, hb⟩, hw⟩ : (readable a = true ∧ readable b = true) ∧ writable a = true := by
    simpa [illegalAccess_of_rmwOperands hi] using h
  obtain ⟨v, s1, hread⟩ := readBoth_ok a b s ha hb
  cases i with
  | add _ _ | sub _ _ | mul _ _ | div _ _ | shl _ _ | shr _ _ =>
    cases hi
    unfold applied
    exact applyWithOverflow_ok_of_writable _ hread hw
  | mod _ _ | and _ _ | bor _ _ | xor _ _ =>
    cases hi
    exact applyPlain_ok_of_writable _ hread hw
  | _ => cases hi

/-! ### IF instructions (R86, R110) -/

theorem readsBoth_of_ifOperands (hi : ifOperands i = some (a, b)) : ReadsBoth i a b := by
  refine ⟨operands_of_ifOperands hi, fun s => ?_⟩
  cases i with
  | ife _ _ | ifn _ _ | ifg _ _ | ifb _ _ => cases hi; rfl
  | _ => cases hi

theorem illegalAccess_of_ifOperands (hi : ifOperands i = some (a, b)) :
    illegalAccess i = (!readable a || !readable b) := by
  cases i with
  | ife _ _ | ifn _ _ | ifg _ _ | ifb _ _ => cases hi; rfl
  | _ => cases hi

theorem firstIllegal_of_ifOperands (hi : ifOperands i = some (a, b)) : firstIllegal i = (.readOfWriteOnly, 0x1A) := by
  cases i with
  | ife _ _ | ifn _ _ | ifg _ _ | ifb _ _ => rfl
  | _ => cases hi

/-- R64: PUSH is the one operand that cannot be read. -/
theorem readable_eq_false_iff (op : Operand) : readable op = false ↔ op = .push := by
  cases op <;> simp [readable]

theorem if_raisesFirstIllegal (hi : ifOperands i = some (a, b)) (s : State) (h : illegalAccess i = true) :
    RaisesFirstIllegal i s := by
  have hpush : a = .push ∨ b = .push := by
    simpa [illegalAccess_of_ifOperands hi, readable_eq_false_iff] using h
  obtain ⟨t, hraise, hleft⟩ := readBoth_raises hpush s
  rw [RaisesFirstIllegal, firstIllegal_of_ifOperands hi]
  exact ⟨t, applied_if_raises_of_read hi hraise,
    .reads ((readsBoth_of_ifOperands hi).readsLeft_of_raise hraise hleft)⟩

theorem applied_if_ok_of_legal (hi : ifOperands i = some (a, b)) (s : State) (h : illegalAccess i = false) :
    ∃ pw t, applied i s = .ok pw t := by
  obtain ⟨ha, hb⟩ : readable a = true ∧ readable b = true := by simpa [illegalAccess_of_ifOperands hi] using h
  obtain ⟨v, s1, hread⟩ := readBoth_ok a b s ha hb
  cases i with
  | ife _ _ | ifn _ _ | ifg _ _ | ifb _ _ =>
    cases hi
    exact ⟨_, _, applyIf_eq_ok.2 ⟨v, s1, hread, rfl, rfl⟩⟩
  | _ => cases hi

end

/-! ### SET and JSR (R91, R106, R110) -/

section

variable (a b : Operand) (s : State)

/-- R91: SET reads B only, and PUSH as B raises after both operands are processed. -/
theorem set_raisesFirstIllegal (h : illegalAccess (.set a b) = true) : RaisesFirstIllegal (.set a b) s := by
  by_cases hb : b = .push
  · subst hb
    refine ⟨(process a s).2, rfl, .reads ⟨process_quiet a s, ?_, ?_, fun x => ?_⟩⟩
    · rw [process_pc, ← lastWord_of_operands rfl]
      exact (BitVec.add_zero _).symm
    · rw [process_sp]
      exact (BitVec.add_zero s.sp).symm
    · rw [process_cell_eq_afterReading]
      simp [faultReads, cellsReadBySet, process, nextWordCells, Operand.nextWords, Resolved.readAddr]
  · have hw : writable a = false := by simpa [illegalAccess, readable_of_ne_push hb] using h
    obtain ⟨v, s1, hread⟩ := readSource_ok a b s (readable_of_ne_push hb)
    rw [RaisesFirstIllegal, firstIllegal, if_neg hb]
    exact ⟨s1, applySet_raises hread hw, .reads ⟨readSource_quiet hread,
      (readSource_pc hread).trans (lastWord_of_operands rfl s.pc), readSource_sp hread, readSource_cell hread⟩⟩

theorem applied_set_ok_of_legal (h : illegalAccess (.set a b) = false) : ∃ pw t, applied (.set a b) s = .ok pw t := by
  obtain ⟨hb, hw⟩ : readable b = true ∧ writable a = true := by simpa [illegalAccess] using h
  obtain ⟨v, s1, hread⟩ := readSource_ok a b s hb
  obtain ⟨t, hwr⟩ := wr_ok_of_writable v.2 v.1 s1 (by rwa [readSource_dst hread])
  exact ⟨_, t, applySet_eq_ok.2 ⟨v, s1, hread, hwr⟩⟩

/-- R106: JSR raises at its read of PUSH, and has done nothing before. -/
theorem jsr_raisesFirstIllegal (h : illegalAccess (.jsr a) = true) : RaisesFirstIllegal (.jsr a) s := by
  obtain rfl : a = .push := by simpa [illegalAccess, readable_eq_false_iff] using h
  exact ⟨s, applied_jsr_push s, .reads ⟨Quiet.refl s, (BitVec.add_zero s.pc).symm, (BitVec.add_zero s.sp).symm,
    fun x => by simp [faultReads, cellsReadByJsr, process, nextWordCells, Operand.nextWords, Resolved.readAddr,
      afterReading]⟩⟩

theorem applied_jsr_ok_of_legal (h : illegalAccess (.jsr a) = false) : ∃ pw t, applied (.jsr a) s = .ok pw t := by
  have ha : readable a = true := by simpa [illegalAccess] using h
  obtain ⟨v, s1, hread⟩ := rd_ok_of_readable (process a s).1 (process a s).2 (by rwa [process_operand])
  exact ⟨true, _, applyJsr_eq_ok.2 ⟨v, s1, hread, rfl, rfl⟩⟩

end

/-! ### Every instruction (R110, R113) -/

/-- R110, R113: an instruction that makes a disallowed access raises at the first one. -/
theorem raisesFirstIllegal_of_illegalAccess (i : Instr) (s : State) (h : illegalAccess i = true) :
    RaisesFirstIllegal i s := by
  cases i with
  | set a b => exact set_raisesFirstIllegal a b s h
  | add _ _ | sub _ _ | mul _ _ | div _ _ | mod _ _ | shl _ _ | shr _ _ | and _ _ | bor _ _ | xor _ _ =>
    exact rmw_raisesFirstIllegal rfl s h
  | ife _ _ | ifn _ _ | ifg _ _ | ifb _ _ => exact if_raisesFirstIllegal rfl s h
  | jsr a => exact jsr_raisesFirstIllegal a s h
  | halt _ _ => cases h

/-- R110: an instruction that makes none goes on. -/
theorem applied_ok_of_legal (i : Instr) (s : State) (h : illegalAccess i = false) :
    ∃ pw t, applied i s = .ok pw t := by
  cases i with
  | set a b => exact applied_set_ok_of_legal a b s h
  | add _ _ | sub _ _ | mul _ _ | div _ _ | mod _ _ | shl _ _ | shr _ _ | and _ _ | bor _ _ | xor _ _ =>
    exact applied_rmw_ok_of_legal rfl s h
  | ife _ _ | ifn _ _ | ifg _ _ | ifb _ _ => exact applied_if_ok_of_legal rfl s h
  | jsr a => exact applied_jsr_ok_of_legal a s h
  | halt _ _ => exact ⟨true, s, rfl⟩

/-- R112, R113: the information of the fault of `i` in `s`. -/
def firstFault (i : Instr) (s : State) : FaultInfo where
  kind := (firstIllegal i).1
  code := (firstIllegal i).2
  word := encode i
  addr := s.pc

/-- R110, R112: an instruction that makes a disallowed access faults, and only the mark is set after the raise. -/
theorem exec_of_illegalAccess {i : Instr} (s : State) (h : illegalAccess i = true) :
    ∃ t, LeftByFault i s t ∧
      exec i s = .fault (.invalidOperation (firstFault i s) { t with faulted := some (firstFault i s) }) := by
  have hi : i.isHalt = false := by
    cases i with
    | halt _ _ => cases h
    | _ => rfl
  obtain ⟨t, hraise, hleft⟩ := raisesFirstIllegal_of_illegalAccess i s h
  refine ⟨t, hleft, ?_⟩
  rw [exec_eq_finish i s hi, hraise, finish_raise]
  rfl

theorem exec_of_legal {i : Instr} (s : State) (h : illegalAccess i = false) : ∃ t, exec i s = .next t := by
  cases hi : i.isHalt with
  | true =>
    obtain ⟨fa, fb, rfl⟩ := i.isHalt_iff.1 hi
    exact ⟨_, exec_halt fa fb s⟩
  | false =>
    obtain ⟨pw, u, happ⟩ := applied_ok_of_legal i s h
    exact ⟨_, (exec_eq_next hi).2 ⟨pw, u, happ, rfl⟩⟩

theorem illegalAccess_of_fault {i : Instr} {s : State} {f : Fault} (h : exec i s = .fault f) :
    illegalAccess i = true := by
  by_contra hlegal
  obtain ⟨t, hnext⟩ := exec_of_legal s (Bool.eq_false_of_not_eq_true hlegal)
  cases h.symm.trans hnext

/-! ### States that differ in their trace only (R121) -/

/-- `t` is `s` with another trace. -/
inductive SameButTrace (s : State) : State → Prop where
  | intro (evs : List Event) : SameButTrace s { s with events := evs }

/-- The same way to go on or to raise, in states that differ in their trace only. -/
inductive AgreeButTrace {α : Type} : Access α → Access α → Prop where
  | ok (v : α) {s t : State} (h : SameButTrace s t) : AgreeButTrace (.ok v s) (.ok v t)
  | raise (k : FaultKind) (c : Code) {s t : State} (h : SameButTrace s t) : AgreeButTrace (.raise k c s) (.raise k c t)

/-- A sequence agrees where both of its parts do. -/
theorem AgreeButTrace.bind {α β : Type} {m n : Access α} {f : α → State → Access β} (hm : AgreeButTrace m n)
    (hf : ∀ v s t, SameButTrace s t → AgreeButTrace (f v s) (f v t)) : AgreeButTrace (m.bind f) (n.bind f) := by
  cases hm with
  | ok v h => exact hf v _ _ h
  | raise k c h => exact .raise k c h

section

variable {s t : State} (h : SameButTrace s t)
include h

namespace SameButTrace

theorem eraseEvents : { t with events := [] } = { s with events := [] } := by cases h; rfl

theorem params : t.params = s.params := by cases h; rfl

theorem setReg (r : Reg) (v : Word) : SameButTrace (s.setReg r v) (t.setReg r v) := by cases h; exact .intro _

theorem setPc (v : Word) : SameButTrace (s.setPc v) (t.setPc v) := by cases h; exact .intro _

theorem setSp (v : Word) : SameButTrace (s.setSp v) (t.setSp v) := by cases h; exact .intro _

theorem setO (v : Word) : SameButTrace (s.setO v) (t.setO v) := by cases h; exact .intro _

theorem setSkip (v : Bool) : SameButTrace (s.setSkip v) (t.setSkip v) := by cases h; exact .intro _

theorem incPc : SameButTrace s.incPc t.incPc := by cases h; exact .intro _

theorem returning (r : StepResult) : SameButTrace (s.returning r) (t.returning r) := by cases h; exact .intro _

theorem withFaulted (m : Option FaultInfo) : SameButTrace { s with faulted := m } { t with faulted := m } := by
  cases h; exact .intro _

theorem memWrite (a v : Word) : SameButTrace (s.memWrite a v) (t.memWrite a v) := by cases h; exact .intro _

/-- R33: the write that clears a key only adds to the trace. -/
theorem afterRead (a : Word) : SameButTrace (s.afterRead a) (t.afterRead a) := by
  by_cases hk : regionOf a = .keyboard
  · rw [State.afterRead_keyboard s hk, State.afterRead_keyboard t hk]
    exact h.memWrite a 0
  · rwa [State.afterRead_plain s a hk, State.afterRead_plain t a hk]

theorem popMove (sa : Option Word) : SameButTrace (Machine.popMove sa s) (Machine.popMove sa t) := by
  unfold Machine.popMove
  rw [h.params]
  have hmove : SameButTrace (s.setSp (s.sp + 1)) (t.setSp (t.sp + 1)) := by cases h; exact .intro _
  split
  · exact hmove
  · split
    · exact hmove
    · exact h

theorem process (op : Operand) : SameButTrace (Machine.process op s).2 (Machine.process op t).2 := by
  have hpc : t.pc = s.pc := by cases h; rfl
  rw [process_state, process_state, hpc]
  split
  · exact h.incPc.afterRead _
  · exact h

theorem process_fst (op : Operand) : (Machine.process op t).1 = (Machine.process op s).1 := by
  cases h with
  | intro evs =>
    cases op with
    | indNext r => rw [process_indNext_fst, process_indNext_fst]; rfl
    | _ => rfl

end SameButTrace

theorem rd_agree (r : Resolved) : AgreeButTrace (rd r s) (rd r t) := by
  cases h with
  | intro evs =>
    have hs : SameButTrace s { s with events := evs } := .intro evs
    cases r with
    | reg _ | sp | pc | o | next _ | lit _ => exact .ok _ hs
    | ind _ | indNext _ _ _ | peek | nextInd _ => exact .ok _ (hs.afterRead _)
    | pop sa => exact .ok _ ((hs.afterRead _).popMove sa)
    | push => exact .raise _ _ hs

theorem wr_agree (r : Resolved) (v : Word) : AgreeButTrace (wr r v s) (wr r v t) := by
  cases h with
  | intro evs =>
    have hs : SameButTrace s { s with events := evs } := .intro evs
    cases r with
    | reg g => exact .ok _ (hs.setReg g v)
    | ind _ | indNext _ _ _ | peek | nextInd _ => exact .ok _ (hs.memWrite _ v)
    | pop sa => exact .ok _ ((hs.memWrite _ v).popMove sa)
    | push => exact .ok _ ((hs.setSp _).memWrite _ v)
    | sp => exact .ok _ (hs.setSp v)
    | pc => exact .ok _ (hs.setPc v)
    | o => exact .ok _ (hs.setO v)
    | next _ | lit _ => exact .raise _ _ hs

theorem readBoth_agree (a b : Operand) : AgreeButTrace (readBoth a b s) (readBoth a b t) := by
  have ha := h.process a
  simp only [readBoth, h.process_fst a, ha.process_fst b]
  exact (rd_agree (ha.process b) _).bind fun va s1 t1 h1 =>
    (rd_agree h1 _).bind fun vb s2 t2 h2 => .ok _ h2

theorem readSource_agree (a b : Operand) : AgreeButTrace (readSource a b s) (readSource a b t) := by
  have ha := h.process a
  simp only [readSource, h.process_fst a, ha.process_fst b]
  exact (rd_agree (ha.process b) _).bind fun vb s1 t1 h1 => .ok _ h1

theorem writeResultAndOverflow_agree (dst : Resolved) (pair : Word × Word) :
    AgreeButTrace (writeResultAndOverflow dst pair s) (writeResultAndOverflow dst pair t) := by
  unfold writeResultAndOverflow
  rw [h.params]
  split
  · exact (wr_agree h dst pair.1).bind fun pw s1 t1 h1 => .ok pw (h1.setO pair.2)
  · exact wr_agree (h.setO pair.2) dst pair.1

theorem applySet_agree (a b : Operand) : AgreeButTrace (applySet a b s) (applySet a b t) :=
  (readSource_agree h a b).bind fun _ _ _ h1 => wr_agree h1 _ _

theorem applyPlain_agree (f : Word → Word → Word) (a b : Operand) :
    AgreeButTrace (applyPlain f a b s) (applyPlain f a b t) :=
  (readBoth_agree h a b).bind fun _ _ _ h1 => wr_agree h1 _ _

theorem applyWithOverflow_agree (f : ArithSemantics → Word → Word → Word × Word) (a b : Operand) :
    AgreeButTrace (applyWithOverflow f a b s) (applyWithOverflow f a b t) :=
  (readBoth_agree h a b).bind fun _ s1 t1 h1 => by
    rw [h1.params]
    exact writeResultAndOverflow_agree h1 _ _

theorem applyIf_agree (cond : Word → Word → Bool) (a b : Operand) :
    AgreeButTrace (applyIf cond a b s) (applyIf cond a b t) := by
  refine (readBoth_agree h a b).bind fun v s1 t1 h1 => .ok false ?_
  split
  · exact h1
  · exact h1.setSkip true

theorem pushPcAndJump_sameButTrace (v : Word) : SameButTrace (pushPcAndJump v s) (pushPcAndJump v t) := by
  cases h; exact .intro _

theorem applyJsr_agree (a : Operand) : AgreeButTrace (applyJsr a s) (applyJsr a t) := by
  simp only [applyJsr, h.process_fst a]
  exact (rd_agree (h.process a) _).bind fun v s1 t1 h1 => .ok true (pushPcAndJump_sameButTrace h1 v.1)

/-- R121: the trace decides neither how `apply` ends nor what it leaves but its trace. -/
theorem applied_agree (i : Instr) : AgreeButTrace (applied i s) (applied i t) := by
  cases i with
  | set a b => exact applySet_agree h a b
  | add a b | sub a b | mul a b | div a b | shl a b | shr a b =>
    unfold applied
    exact applyWithOverflow_agree h _ a b
  | mod a b | and a b | bor a b | xor a b => exact applyPlain_agree h _ a b
  | ife a b | ifn a b | ifg a b | ifb a b => exact applyIf_agree h _ a b
  | jsr a => exact applyJsr_agree h a
  | halt fa fb => exact .ok true h

theorem completed_sameButTrace (pw : Bool) : SameButTrace (completed pw s) (completed pw t) := by
  cases pw
  · exact h.incPc.returning .executed
  · exact h.returning .executed

end

/-! ### The end of an executed step, under another trace (R85, R88) -/

section

variable {i : Instr} {p : Word} {m n : Access Bool}

theorem finish_next_agree (h : AgreeButTrace m n) {t : State} (hm : finish i p m = .next t) :
    ∃ u, finish i p n = .next u ∧ SameButTrace t u := by
  obtain ⟨pw, s, rfl, rfl⟩ := finish_eq_next.1 hm
  cases h with
  | ok _ h => exact ⟨_, finish_ok i p pw _, completed_sameButTrace h pw⟩

theorem finish_fault_agree (h : AgreeButTrace m n) {info : FaultInfo} {l : State}
    (hm : finish i p m = .fault (.invalidOperation info l)) :
    ∃ l', finish i p n = .fault (.invalidOperation info l') ∧ SameButTrace l l' := by
  obtain ⟨k, c, s, rfl, hf⟩ := finish_eq_fault.1 hm
  obtain ⟨rfl, rfl⟩ := Fault.invalidOperation.inj hf
  cases h with
  | raise _ _ h => exact ⟨_, finish_raise i p k c _, h.withFaulted _⟩

end

/-! ### Reads of the host (R31, D13) -/

theorem State.cell_afterRead_eq_afterReading (s : State) (a x : Word) :
    (s.afterRead a).cell x = afterReading [a] s x := by
  simp [State.cell_afterRead, afterReading, and_comm]

end Sys2Proof.Machine

namespace Sys2Proof.Claims

open Sys2Proof.Machine

/-- Settles O11: `apply` raises where a disallowed access is made and goes on where none is. -/
theorem faultsExactlyAtIllegalAccess : Obligations.FaultsExactlyAtIllegalAccess := by
  refine fun i s => ⟨fun h => ?_, exec_of_legal s⟩
  obtain ⟨t, -, hexec⟩ := exec_of_illegalAccess s h
  exact ⟨_, hexec⟩

/-- Settles O12: the state at the raise, where O differs only if the instruction wrote it before its result. -/
theorem faultReportsFirstAccessAndIsNotUndone : Obligations.FaultReportsFirstAccessAndIsNotUndone := by
  intro i s f hf
  obtain ⟨t, hleft, hexec⟩ := exec_of_illegalAccess s (illegalAccess_of_fault hf)
  obtain rfl := Host.Outcome.fault.inj (hf.symm.trans hexec)
  refine ⟨_, rfl, rfl, ?_⟩
  cases hleft with
  | reads h =>
    have hq := h.quiet
    exact ⟨h.pc, hq.regs, hq.skip, hq.loaded, hq.params, h.sp, fun _ => hq.o, h.cell⟩
  | overflow v h hw horder hk =>
    have hq := h.quiet
    exact ⟨h.pc, hq.regs, hq.skip, hq.loaded, hq.params, h.sp, fun ho => by simp [hw, horder, hk] at ho, h.cell⟩

/-- Settles O17: `apply` ends alike under both traces, and so does the step. -/
theorem eventsNeverInfluenceExecution : Obligations.EventsNeverInfluenceExecution := by
  intro i s evs
  have hs : SameButTrace s { s with events := evs } := .intro evs
  cases hi : i.isHalt with
  | true =>
    obtain ⟨fa, fb, rfl⟩ := i.isHalt_iff.1 hi
    refine ⟨fun t ht => ?_, nofun⟩
    obtain rfl := Host.Outcome.next.inj ht
    exact ⟨_, rfl, (hs.returning .halted).eraseEvents⟩
  | false =>
    rw [exec_eq_finish i s hi, exec_eq_finish i _ hi]
    refine ⟨fun t ht => ?_, fun info l hl => ?_⟩
    · obtain ⟨u, hu, htu⟩ := finish_next_agree (applied_agree hs i) ht
      exact ⟨u, hu, htu.eraseEvents⟩
    · obtain ⟨l', hl', hll⟩ := finish_fault_agree (applied_agree hs i) hl
      exact ⟨l', hl', hll.eraseEvents⟩

/-- Settles O59: each port is one access or one register write after the start of the call. -/
theorem hostPortsReachTheState : Obligations.HostPortsReachTheState := by
  intro a v s
  refine ⟨⟨s.beginCall.memWrite a v, rfl, ?_, fun x hx => ?_, rfl, rfl, rfl, rfl, rfl, rfl, rfl, rfl⟩,
    ⟨s.beginCall.afterRead a, rfl, fun x => ?_, ?_⟩,
    ⟨s.beginCall.setPc v, _, rfl, rfl, rfl, rfl, rfl, rfl, rfl, ⟨rfl, rfl, rfl⟩, rfl⟩,
    ⟨s.beginCall.setSp v, _, rfl, rfl, rfl, rfl, rfl, rfl, rfl, ⟨rfl, rfl, rfl⟩, rfl⟩,
    s.beginCall.setO v, _, rfl, rfl, rfl, rfl, rfl, rfl, rfl, ⟨rfl, rfl, rfl⟩, rfl⟩
  · exact State.cell_memWrite_same _ a v
  · exact State.cell_memWrite_other _ v hx
  · exact State.cell_afterRead_eq_afterReading _ a x
  · have hq := Quiet.afterRead s.beginCall a
    exact ⟨hq.regs, State.afterRead_pc _ a, State.afterRead_sp _ a, hq.o, hq.skip, hq.keepsControl⟩

end Sys2Proof.Claims
end

section
/-! PROOFS. An implementation's own integers (D6, log entry 4), and the loads (R128 to R130). Where no formula needs a
value outside a 32-bit signed integer the free value is not used, whatever `ArithSemantics` is. A load is one equation:
`loadWords` places the Words, as `Mem.place` does, and appends their notifications. -/

namespace Sys2Proof.Machine

/-! ### An implementation's own integers (U3, D6) -/

section

variable {op : ArithOp} {a b : Word}

/-- D6: where the width cannot matter, every `ArithSemantics` gives the mathematical pair. -/
theorem underSemantics_of_not_widthMatters (h : widthMatters op a b = false) (sem : ArithSemantics)
    (pair : Word × Word) : underSemantics sem op pair a b = pair := by
  cases sem with
  | mathematical => rfl
  | own => rw [underSemantics, h, if_neg Bool.false_ne_true]

/-- R95, D6: division under every `ArithSemantics` is the mathematical one where the width cannot matter. -/
theorem divUnder_of_not_widthMatters (h : widthMatters .div a b = false) (sem : ArithSemantics) :
    divUnder sem a b = divUnder .mathematical a b := by
  rw [divUnder, divUnder, underSemantics_of_not_widthMatters h, underSemantics_of_not_widthMatters h]

theorem widthMatters_mul_eq_false (h : a.toNat * b.toNat < 2 ^ 31) : widthMatters .mul a b = false :=
  decide_eq_false (Nat.not_le.2 h)

/-- R95, R98: the dividend and the shifted value of DIV and SHR then need no more than a 32-bit signed integer. -/
theorem shiftLeft_16_lt (h : a.toNat < 0x8000) : a.toNat <<< 16 < 2 ^ 31 := by
  rw [Nat.shiftLeft_eq]
  omega

theorem widthMatters_div_eq_false (h : a.toNat < 0x8000) : widthMatters .div a b = false :=
  decide_eq_false (Nat.not_le.2 (shiftLeft_16_lt h))

theorem widthMatters_shl_eq_false (hb : b.toNat < 32) (h : a.toNat * 2 ^ b.toNat < 2 ^ 31) :
    widthMatters .shl a b = false := by
  rw [← Nat.shiftLeft_eq] at h
  rw [widthMatters, decide_eq_false (Nat.not_le.2 hb), decide_eq_false (Nat.not_le.2 h), Bool.or_false]

theorem widthMatters_shr_eq_false (hb : b.toNat < 32) (h : a.toNat < 0x8000) : widthMatters .shr a b = false := by
  rw [widthMatters, decide_eq_false (Nat.not_le.2 hb), decide_eq_false (Nat.not_le.2 (shiftLeft_16_lt h)),
    Bool.or_false]

end

/-! ### What a load of Words leaves (R129) -/

/-- R39: the address after the one of number `n`. -/
theorem ofNat_add_one (n : Nat) : BitVec.ofNat 16 n + 1 = BitVec.ofNat 16 (n + 1) := (BitVec.ofNat_add n 1).symm

/-- R33, R129: the notifications of loading one Word, given with its address. -/
def loadEvents (p : Word × Nat) : List Event :=
  writeEvents (BitVec.ofNat 16 p.2) p.1 ++ [.valueLoaded (BitVec.ofNat 16 p.2) p.1]

/-- R129: a load changes memory and the notifications only. -/
theorem loadWords_eq (s : State) (n : Nat) (ws : List Word) :
    loadWords s (BitVec.ofNat 16 n) ws =
      { s with mem := s.mem.place (BitVec.ofNat 16 n) ws, events := s.events ++ (ws.zipIdx n).flatMap loadEvents } := by
  induction ws generalizing s n with
  | nil => simp [loadWords, Mem.place]
  | cons w ws ih =>
    rw [loadWords, Mem.place, ofNat_add_one, ih]
    simp [loadEvents]

/-- R28, R129: the cells after Words are placed from `n` upward, where they do not run past the end of memory. -/
theorem Mem.read_place {m : Mem} {n : Nat} {ws : List Word} (h : n + ws.length ≤ 0x10000) (x : Nat) :
    (m.place (BitVec.ofNat 16 n) ws).read x = if x < n then m.read x else ws[x - n]?.getD (m.read x) := by
  induction ws generalizing m n with
  | nil => simp [Mem.place]
  | cons w ws ih =>
    rw [List.length_cons] at h
    have haddr : (BitVec.ofNat 16 n).toNat = n := Nat.mod_eq_of_lt (by omega)
    rw [Mem.place, ofNat_add_one, haddr, ih (by omega)]
    obtain hlt | rfl | hgt := Nat.lt_trichotomy x n
    · rw [if_pos (by omega), if_pos hlt, Mem.read_write_other m w hlt.ne]
    · simp
    · rw [if_neg (by omega), if_neg (by omega), Mem.read_write_other m w hgt.ne',
        show x - n = x - (n + 1) + 1 by omega, List.getElem?_cons_succ]

theorem loadProgram_of_gt {ws : List Word} (h : ws.length > 0x10000) (s : State) :
    loadProgram ws s = .refused .programTooLong := if_pos h

theorem loadProgram_of_le {ws : List Word} (h : ws.length ≤ 0x10000) (s : State) :
    loadProgram ws s = .ok none { s.beginCall.doReset with
      mem := Mem.place [] 0 ws, loaded := true, events := ws.zipIdx.flatMap loadEvents } := by
  rw [loadProgram, if_neg (Nat.not_lt.2 h), show (0 : Word) = BitVec.ofNat 16 0 from rfl, loadWords_eq]
  rfl

theorem loadBinary_of_none {bs : List Byte} (h : wordsOfBytes bs = none) (s : State) :
    loadBinary bs s = .failed := by
  unfold loadBinary
  rw [h]

theorem loadBinary_of_some {bs : List Byte} {ws : List Word} (h : wordsOfBytes bs = some ws) (s : State) :
    loadBinary bs s = loadProgram ws s := by
  unfold loadBinary
  rw [h]

/-! ### A call that is refused or fails (R123) -/

theorem act_host_of_refused {c : HostCall} {s : State} {r : Refusal} (h : hostCall c s = .refused r) :
    act (.host c) s = s := by
  rw [act, h]

theorem act_host_of_failed {c : HostCall} {s : State} (h : hostCall c s = .failed) : act (.host c) s = s := by
  rw [act, h]

end Sys2Proof.Machine

namespace Sys2Proof

/-! ### Words of bytes (R38, R130) -/

/-- R38: the high byte comes first. -/
theorem toNat_byteAppend (h l : Byte) : (h ++ l : Word).toNat = h.toNat * 0x100 + l.toNat := by
  rw [BitVec.toNat_append, ← Nat.shiftLeft_add_eq_or_of_lt l.isLt, Nat.shiftLeft_eq]

theorem wordsOfBytes_of_odd {bs : List Byte} (h : bs.length % 2 = 1) : wordsOfBytes bs = none := by
  induction bs using wordsOfBytes.induct with
  | case1 => cases h
  | case2 => rfl
  | case3 hi lo bs ih =>
    simp only [List.length_cons] at h
    rw [wordsOfBytes, ih (by omega), Option.map_none]

/-- R130: `ws` are the big-endian Words of `bs`, two bytes each. -/
structure BigEndian (bs : List Byte) (ws : List Word) : Prop where
  length : 2 * ws.length = bs.length
  word : ∀ k, k < ws.length →
    (ws.getD k 0).toNat = (bs.getD (2 * k) 0).toNat * 0x100 + (bs.getD (2 * k + 1) 0).toNat

theorem BigEndian.cons {bs : List Byte} {ws : List Word} (h : BigEndian bs ws) (hi lo : Byte) :
    BigEndian (hi :: lo :: bs) ((hi ++ lo : Word) :: ws) := by
  obtain ⟨hlength, hword⟩ := h
  refine ⟨by simp only [List.length_cons]; omega, fun k hk => ?_⟩
  cases k with
  | zero => exact toNat_byteAppend hi lo
  | succ k => exact hword k (Nat.lt_of_succ_lt_succ hk)

theorem wordsOfBytes_of_even {bs : List Byte} (h : bs.length % 2 = 0) :
    ∃ ws, wordsOfBytes bs = some ws ∧ BigEndian bs ws := by
  induction bs using wordsOfBytes.induct with
  | case1 => exact ⟨[], rfl, rfl, nofun⟩
  | case2 => cases h
  | case3 hi lo bs ih =>
    simp only [List.length_cons] at h
    obtain ⟨ws, hws, hbig⟩ := ih (by omega)
    exact ⟨(hi ++ lo : Word) :: ws, by rw [wordsOfBytes, hws, Option.map_some], hbig.cons hi lo⟩

end Sys2Proof

namespace Sys2Proof.Claims

open Sys2Proof.Machine

/-- Settles O35: each guard says that the width cannot matter, so the mathematical formulas hold. -/
theorem ownArithmeticAgreesOnSmallValues : Obligations.OwnArithmeticAgreesOnSmallValues := by
  refine ⟨?mul, ?div, ?shl, ?shr⟩
  case mul =>
    exact overflowRule_of_applied (fun sem x y => underSemantics sem .mul (mulPair x y) x y)
      (hasBasicWord_of_encode 0x4 fun _ _ => rfl) (fun _ _ => rfl) (fun _ _ _ => rfl) fun _ x y hg =>
        (underSemantics_of_not_widthMatters (widthMatters_mul_eq_false hg) _ _).trans (mulPair_eq x y)
  case div =>
    exact overflowRule_of_applied divUnder
      (hasBasicWord_of_encode 0x5 fun _ _ => rfl) (fun _ _ => rfl) (fun _ _ _ => rfl) fun _ x y hg =>
        (divUnder_of_not_widthMatters (widthMatters_div_eq_false hg) _).trans (divUnder_eq x y (.inl rfl))
  case shl =>
    exact overflowRule_of_applied (fun sem x y => underSemantics sem .shl (shlPair x y) x y)
      (hasBasicWord_of_encode 0x7 fun _ _ => rfl) (fun _ _ => rfl) (fun _ _ _ => rfl) fun _ x y ⟨hb, ha⟩ =>
        (underSemantics_of_not_widthMatters (widthMatters_shl_eq_false hb ha) _ _).trans (shlPair_eq x y)
  case shr =>
    exact overflowRule_of_applied (fun sem x y => underSemantics sem .shr (shrPair x y) x y)
      (hasBasicWord_of_encode 0x8 fun _ _ => rfl) (fun _ _ => rfl) (fun _ _ _ => rfl) fun _ x y ⟨hb, ha⟩ =>
        (underSemantics_of_not_widthMatters (widthMatters_shr_eq_false hb ha) _ _).trans (shrPair_eq x y)

/-- Settles O56: the state of the load is the reset state with the Words placed and their notifications appended. -/
theorem loadProgramResetsAndPlaces : Obligations.LoadProgramResetsAndPlaces := by
  refine fun ws s => ⟨fun h => ?_, fun h => ?_⟩
  · have hcall : hostCall (.loadProgram ws) s = .refused .programTooLong := loadProgram_of_gt h s
    exact ⟨hcall, act_host_of_refused hcall⟩
  · refine ⟨_, loadProgram_of_le h s, fun r => by cases r <;> rfl, rfl, rfl, rfl, rfl, rfl, rfl, fun a => ?_, rfl⟩
    calc (Mem.place [] 0 ws).read a.toNat
        = ws[a.toNat]?.getD 0 := Mem.read_place (m := []) (n := 0) (by omega) a.toNat
      _ = ws.getD a.toNat 0 := (List.getD_eq_getElem?_getD ..).symm

/-- Settles O57: `load_binary` is `load_program` of the big-endian Words, which an odd number of bytes does not have. -/
theorem loadBinaryIsBigEndian : Obligations.LoadBinaryIsBigEndian := by
  refine fun bs s => ⟨fun h => ?_, fun h => ?_⟩
  · have hcall : hostCall (.loadBinary bs) s = .failed := loadBinary_of_none (wordsOfBytes_of_odd h) s
    exact ⟨hcall, act_host_of_failed hcall⟩
  · obtain ⟨ws, hws, hbig⟩ := wordsOfBytes_of_even h
    exact ⟨ws, loadBinary_of_some hws s, hbig.length, hbig.word⟩

end Sys2Proof.Claims
end
